-- ==== Sys2Proof/Word.lean ====
section
/-! DEFINITION. The one word type of the machine.

Rule R3 (`00_scope.md`): XLEN = 32; every register, heap word, stream word, operand and opcode is an
unsigned 32-bit value. Nothing on this machine is narrower or wider than a word (R31, R34), so there
is no byte type and no byte order.
-/

namespace Sys2Proof

/-- An unsigned 32-bit value, the spec's `u32` (R3). -/
abbrev Word := BitVec 32

/-- `trunc32` of `00_scope.md` section 6, on naturals: the value modulo 2^32. -/
def trunc32 (n : Nat) : Word := BitVec.ofNat 32 n

end Sys2Proof
end

