-- ==== Sys2Proof/Config.lean ====
section
/-! DEFINITION. The machine's parameters (`00_scope.md` section 4, R5 and R6).

The spec asks for these four as arguments of the model with a default each; they are fixed for a
machine and no step changes them. `step` takes the state alone, so the record travels in the state
(`State.cfg`) and every statement can quantify over it (DESIGN CHOICE, log entry 2).
-/

namespace Sys2Proof

/-- The machine parameters that the spec names. -/
structure Config where
  /-- `QUANTUM` (R5, D20): executor steps per quantum, at least 1. -/
  quantum : Nat
  /-- `MUL_SPLIT`, written `K` (R6, R120, D5): splits a product and joins a dividend. -/
  mulSplit : Nat
  /-- `ADD_REG_WRITES_CARRY` (R6, R102, R111, D3). -/
  addRegWritesCarry : Bool
  /-- `NPROC_MAX` (R6, D23, U13): the capacity of the process table, `none` for no bound. -/
  nprocMax : Option Nat
  deriving DecidableEq, Repr

/-- The defaults of the parameter table of `00_scope.md` section 4. -/
def Config.default : Config where
  quantum := 100000
  mulSplit := 2 ^ 32
  addRegWritesCarry := false
  nprocMax := none

/-- The bounds the spec puts on the parameters: QUANTUM >= 1 (R5) and K >= 1 (`43_muldiv.md`,
after R125). -/
abbrev Config.Valid (c : Config) : Prop := 1 ≤ c.quantum ∧ 1 ≤ c.mulSplit

/-- HEAP_SIZE of a process whose host names none: 256 words (R4, R148). -/
def defaultHeapSize : Nat := 256

/-- UID of a process whose host names none (R4, R148). -/
def defaultUid : Word := 0#32

/-- The longest stream: LEN <= 2^32 - 1 (R6, D13). -/
def maxStreamLength : Nat := 2 ^ 32 - 1

/-- The largest heap: HEAP_SIZE <= 2^32 (R6, D13). -/
def maxHeapSize : Nat := 2 ^ 32

end Sys2Proof
end

