-- ==== Sys2Proof/Machine/State.lean ====
section
/-! DEFINITION. The state of the machine (`10_state.md`), as plain data, and its reset value.

A process is one execution context (R10); the scheduler holds the ordered table of them, a cursor and
a step counter (R21 to R23); the machine has a run state, an abort cause and an output sequence (R24 to
R26). Three things here are the MODEL's own and not the spec's: `State.cfg` carries the parameters (log
entry 2), `State.host` the calls that the host has still to make (log entry 6), and `State.halted` with
`Process.loadIndex` is the bookkeeping that R156 suggests (log entry 9). Each is a
DESIGN CHOICE.
-/

namespace Sys2Proof.Machine

/-- The six general registers by name (R11). -/
inductive Reg where
  | r0 | r1 | r2 | r3 | r4 | r5
  deriving DecidableEq, Repr

/-- The register file: six 32-bit slots (R10, R11). -/
structure RegFile where
  x0 : Word
  x1 : Word
  x2 : Word
  x3 : Word
  x4 : Word
  x5 : Word
  deriving DecidableEq, Repr

/-- The three flags, each a boolean, packed in no register (R15). -/
structure Flags where
  zero : Bool
  carry : Bool
  sign : Bool
  deriving DecidableEq, Repr

/-- A heap as (word index, word) pairs in one canonical form: indices strictly rising and no word equal
to what an unlisted index reads as (`Memory.wf` in Ops.lean). The cells are words and not bytes, because
the addressable unit is one 32-bit word (R31; DESIGN CHOICE, log entry 1). -/
abbrev Memory := List (Nat × Word)

/-- One process (R10). -/
structure Process where
  /-- `x[0]` to `x[5]` (R11). -/
  regs : RegFile
  /-- `zero`, `carry`, `sign` (R15). -/
  flags : Flags
  /-- The heap's contents (R17). -/
  heap : Memory
  /-- `HEAP_SIZE`, fixed at creation (R4, R17). -/
  heapSize : Nat
  /-- `STREAM`, never written (R18); `LEN` is its length. -/
  stream : List Word
  /-- `pc`, a word index into the stream, 32 bits wide (R13, D13; DEDUCED, log entry 14). -/
  pc : Word
  /-- The user identifier, stored and never read (R19, D28). -/
  uid : Word
  /-- The MODEL's own: how many processes were loaded before this one (R156; log entry 9). -/
  loadIndex : Nat
  deriving DecidableEq, Repr

/-- `MSTATE` (R24). -/
inductive MState where
  /-- After reset: processes may be loaded. -/
  | idle
  /-- A quantum is in progress. -/
  | run
  /-- A quantum has ended; waiting for the host's resume. -/
  | yield
  /-- The table became empty; terminal. -/
  | stopped
  /-- A fatal fault occurred; terminal. -/
  | aborted
  deriving DecidableEq, Repr

/-- The contents of `ACAUSE` by name; `Cause.code` gives the number (R25, R166; DESIGN CHOICE, log entry
13). -/
inductive Cause where
  | none
  | unknownOpcode
  | truncatedInstruction
  | badRegister
  | heapBounds
  | divideByZero
  deriving DecidableEq, Repr

/-- A fatal fault on its way: what `raise F(info)` is given (`00_scope.md` section 7). -/
structure Raise where
  cause : Cause
  info : Word
  deriving DecidableEq, Repr

/-- A console event (R26, R74). -/
inductive Event where
  | text (codes : List Word)
  | number (v : Word)
  deriving DecidableEq, Repr

/-- A call of the host on the block's ports (R148 to R150, R180). -/
inductive HostCall where
  /-- `reset`, in any state (R180). -/
  | reset
  /-- `load(STREAM, HEAP_SIZE = 256, UID = 0)` (R148). -/
  | load (stream : List Word) (heapSize : Nat := defaultHeapSize) (uid : Word := defaultUid)
  /-- `start` (R149). -/
  | start
  /-- `resume` (R150). -/
  | resume
  deriving DecidableEq, Repr

/-- The whole machine. -/
structure State where
  /-- The MODEL's own: the machine's parameters, which no step changes (R5, R6; log entry 2). -/
  cfg : Config
  /-- `PT`, the process table in load order (R21); `NP` is its length. -/
  pt : List Process
  /-- `CUR`, the cursor, a number without a width (R22; DESIGN CHOICE, log entry 15). -/
  cur : Nat
  /-- `QSTEP`, the executor steps of this quantum (R23; DESIGN CHOICE, log entry 15). -/
  qstep : Nat
  /-- `MSTATE` (R24). -/
  mstate : MState
  /-- `ACAUSE` (R25). -/
  acause : Cause
  /-- `AVAL` (R25). -/
  aval : Word
  /-- `OUT`, the console events since reset (R26). -/
  out : List Event
  /-- The MODEL's own: the final records of the processes that have halted (R156; log entry 9). -/
  halted : List Process
  /-- The MODEL's own: the calls the host has still to make, first one first (log entry 6). -/
  host : List HostCall
  deriving DecidableEq, Repr

/-- Why the model itself stops. The spec's five fatal faults are not here: raising one is a next state,
`MSTATE = ABORTED` (R165). -/
inductive Fault where
  /-- An executor step was asked for while `PT` has no element at index `CUR`. Raised by every meaning and
  by the scheduler's executor step. R22 rules the case out, and no step from reset reaches it. SAFE: the
  model stops where the spec describes no behaviour (DESIGN CHOICE, log entry 10). -/
  | noCurrentProcess
  deriving DecidableEq, Repr

/-- What the model refuses to give a meaning. -/
inductive Refusal where
  /-- An instruction of the opcode table without a meaning; raised only by a refused arm of `exec`, of
  which there is none. SAFE: the model stops. -/
  | notModelled (mnemonic : String)
  deriving DecidableEq, Repr

/-- The machine after `reset`: nothing loaded, `IDLE`, no cause, no output (R29, R180), with the default
parameters and no host call to come (DESIGN CHOICE, log entry 12). -/
def State.reset : State where
  cfg := Config.default
  pt := []
  cur := 0
  qstep := 0
  mstate := .idle
  acause := .none
  aval := 0#32
  out := []
  halted := []
  host := []

end Sys2Proof.Machine
end

