-- ==== Sys2Proof/Syntax.lean ====
section
/-! DEFINITION. The instructions: one constructor per row of `spec/opcode_table.json`, 31 in all
(R62), with the operands in stream order (R55).

Every operand is one whole 32-bit word of one of four kinds (R52). A register operand is kept as the
word it is in the stream: a value of 6 or more is a legal thing to meet there, and the instruction that
meets it raises `BadRegister` when it executes (R162), so the machine must see the word.
-/

namespace Sys2Proof

/-- A `reg` operand word (R52): its value is the register index. -/
abbrev RegWord := Word
/-- A `value` operand word (R52): an immediate. -/
abbrev Value := Word
/-- An `addr` operand word (R52): a heap word index. -/
abbrev Addr := Word
/-- A `target` operand word (R52): an absolute stream word index. -/
abbrev Target := Word

/-- The closed instruction set of R62, in opcode order 0x0 to 0x1e. -/
inductive Instr where
  | syscall
  | movValueToRegister (reg : RegWord) (value : Value)
  | movRegisterToRegister (dst src : RegWord)
  | movMemoryToRegister (reg : RegWord) (addr : Addr)
  | movValueToMemory (addr : Addr) (value : Value)
  | movRegisterToMemory (addr : Addr) (reg : RegWord)
  | addValue (reg : RegWord) (value : Value)
  | addRegister (dst src : RegWord)
  | subValue (reg : RegWord) (value : Value)
  | subRegister (dst src : RegWord)
  | mulValue (value : Value)
  | mulRegister (reg : RegWord)
  | divValue (value : Value)
  | divRegister (reg : RegWord)
  | movValueToMemAtRegister (reg : RegWord) (value : Value)
  | movRegisterToMemAtRegister (reg srcReg : RegWord)
  | movMemToMem (addr addr2 : Addr)
  | movMemToMemAtRegister (reg : RegWord) (addr2 : Addr)
  | movMemAtRegisterToRegister (reg addrReg : RegWord)
  | movMemAtRegisterToMem (addr : Addr) (addrReg : RegWord)
  | movMemAtRegisterToMemAtRegister (reg addrReg : RegWord)
  | incrementRegister (reg : RegWord)
  | incrementMemory (addr : Addr)
  | incrementMemoryAtRegister (reg : RegWord)
  | decrementRegister (reg : RegWord)
  | decrementMemory (addr : Addr)
  | decrementMemoryAtRegister (reg : RegWord)
  | compareValue (reg : RegWord) (value : Value)
  | compareRegister (reg reg2 : RegWord)
  | jump (target : Target)
  | jumpIfEqual (target : Target)
  deriving DecidableEq, Repr

end Sys2Proof
end

