-- ==== Sys2Proof/Machine/Ops.lean ====
section
/-! DEFINITION. The named operations over registers, memory, a process and the machine
(`00_scope.md` sections 6 and 7, `20_memory.md` section 1, `60_exceptions.md` section 3).

Every instruction reads all it reads and makes all its fault checks before it writes (R44, R167). The
operations that can raise answer `Except Raise`: an `.error` is the raise, and nothing has been written.
-/

namespace Sys2Proof.Machine

/-! ### Registers (R11, R162) -/

/-- The index of a register. -/
def Reg.index : Reg → Nat
  | .r0 => 0
  | .r1 => 1
  | .r2 => 2
  | .r3 => 3
  | .r4 => 4
  | .r5 => 5

/-- The operand word that names a register: its index (R52). -/
def Reg.word (r : Reg) : Word := BitVec.ofNat 32 r.index

/-- The register that an operand word names, unmasked (R11, R52, D27). -/
def Reg.ofWord? (w : Word) : Option Reg :=
  match w.toNat with
  | 0 => some .r0
  | 1 => some .r1
  | 2 => some .r2
  | 3 => some .r3
  | 4 => some .r4
  | 5 => some .r5
  | _ => none

/-- `x[i]`, read (R11). -/
def RegFile.get (f : RegFile) : Reg → Word
  | .r0 => f.x0
  | .r1 => f.x1
  | .r2 => f.x2
  | .r3 => f.x3
  | .r4 => f.x4
  | .r5 => f.x5

/-- `x[i] <- v` (R11). -/
def RegFile.set (f : RegFile) (r : Reg) (v : Word) : RegFile :=
  match r with
  | .r0 => { f with x0 := v }
  | .r1 => { f with x1 := v }
  | .r2 => { f with x2 := v }
  | .r3 => { f with x3 := v }
  | .r4 => { f with x4 := v }
  | .r5 => { f with x5 := v }

/-- Six registers of one value. -/
def RegFile.all (v : Word) : RegFile := ⟨v, v, v, v, v, v⟩

/-- The check every rule makes of a `reg` operand: an index of 6 or more raises `BadRegister` with the
operand word (R162). -/
def regOperand (w : RegWord) : Except Raise Reg :=
  match Reg.ofWord? w with
  | some r => .ok r
  | none => .error ⟨.badRegister, w⟩

/-! ### The heap (R17, R32) -/

/-- What a heap word that nothing has written reads as: the heap is zero-initialised (R17, R36). -/
def Memory.unlisted : Word := 0#32

/-- The word at an index. -/
def Memory.read : Memory → Nat → Word
  | [], _ => Memory.unlisted
  | (b, v) :: rest, a => if a = b then v else Memory.read rest a

/-- Put a word at an index, keeping the canonical form: the value an unlisted index reads as is not
listed. -/
def Memory.write : Memory → Nat → Word → Memory
  | [], a, v => if v = Memory.unlisted then [] else [(a, v)]
  | (b, w) :: rest, a, v =>
    if a < b then
      if v = Memory.unlisted then (b, w) :: rest else (a, v) :: (b, w) :: rest
    else if a = b then
      if v = Memory.unlisted then rest else (a, v) :: rest
    else (b, w) :: Memory.write rest a v

/-- The canonical form: indices strictly rising, and no word equal to what an unlisted index reads as. -/
def Memory.wf : Memory → Bool
  | [] => true
  | (a, v) :: rest =>
    decide (v ≠ Memory.unlisted) && rest.all (fun c => decide (a < c.1)) && Memory.wf rest

/-! ### One process (R10) -/

/-- `LEN` (R4). -/
def Process.len (p : Process) : Nat := p.stream.length

/-- A process is live when its program counter is within its stream (R20). -/
def Process.live (p : Process) : Bool := decide (p.pc.toNat < p.len)

/-- The state of a new process (R29, R181): registers 0, flags false, heap all 0, pc 0 (the values are
the spec's decision D14; log entry 12). -/
def Process.create (loadIndex : Nat) (stream : List Word) (heapSize : Nat) (uid : Word) : Process where
  regs := RegFile.all 0#32
  flags := ⟨false, false, false⟩
  heap := []
  heapSize := heapSize
  stream := stream
  pc := 0#32
  uid := uid
  loadIndex := loadIndex

/-- `x[i]` of a process. -/
def Process.reg (p : Process) (r : Reg) : Word := p.regs.get r

/-- `x[i] <- v`. -/
def Process.setReg (p : Process) (r : Reg) (v : Word) : Process := { p with regs := p.regs.set r v }

/-- Replace the flags. -/
def Process.setFlags (p : Process) (f : Flags) : Process := { p with flags := f }

/-- The heap word at an index, unchecked: what a reader of the state sees. -/
def Process.heapWord (p : Process) (a : Nat) : Word := p.heap.read a

/-- `MemRead(a)` (R32): the heap word, or `HeapBounds(a)`. -/
def Process.memRead (p : Process) (a : Word) : Except Raise Word :=
  if a.toNat < p.heapSize then .ok (p.heap.read a.toNat) else .error ⟨.heapBounds, a⟩

/-- `MemWrite(a, v)` (R32): the process with the heap word written, or `HeapBounds(a)`. -/
def Process.memWrite (p : Process) (a v : Word) : Except Raise Process :=
  if a.toNat < p.heapSize then .ok { p with heap := p.heap.write a.toNat v }
  else .error ⟨.heapBounds, a⟩

/-- `pc <- t` (R13). -/
def Process.jumpTo (p : Process) (t : Word) : Process := { p with pc := t }

/-- `pc <- pc + 1 + n` for an instruction of `n` operand words (R14). -/
def Process.advance (p : Process) (n : Nat) : Process :=
  { p with pc := p.pc + BitVec.ofNat 32 (1 + n) }

/-- The words that decoding at `pc` sees: `Fetch(pc)`, `Fetch(pc + 1)`, … up to the end of the stream
(R33, R58). -/
def Process.fetchWords (p : Process) : List Word := p.stream.drop p.pc.toNat

/-! ### The machine -/

/-- The process at the cursor, `PT[CUR]` (R22). -/
def State.current (s : State) : Option Process := s.pt[s.cur]?

/-- Replace the process at the cursor. -/
def State.setCurrent (s : State) (p : Process) : State := { s with pt := s.pt.set s.cur p }

/-- `Console(e)`, for each event in turn: append to `OUT` (R74). -/
def State.console (s : State) (es : List Event) : State := { s with out := s.out ++ es }

/-- The number `ACAUSE` holds for a cause (R166). -/
def Cause.code : Cause → Nat
  | .none => 0
  | .unknownOpcode => 1
  | .truncatedInstruction => 2
  | .badRegister => 3
  | .heapBounds => 4
  | .divideByZero => 5

/-- TAKING A FATAL FAULT, the machine's only exception: `raise F(info)` sets `MSTATE`, `ACAUSE` and
`AVAL`, and nothing else changes (R165). There is no return from it (R169): only the host's `reset`
leaves `ABORTED` (R180, `State.hostReset`). That it is a next state is a DESIGN CHOICE (log entry 11). -/
def State.raise (s : State) (r : Raise) : State :=
  { s with mstate := .aborted, acause := r.cause, aval := r.info }

/-- Perform an instruction's rule on the process at the cursor. On a raise the rule has changed nothing
(R157, R168). -/
def State.perform (s : State) (f : Process → Except Raise Process) :
    Host.Outcome State Fault Refusal :=
  match s.current with
  | none => .fault .noCurrentProcess
  | some p =>
    match f p with
    | .ok q => .next (s.setCurrent q)
    | .error r => .next (s.raise r)

/-- `State.perform` for a rule that also emits console events (R70). -/
def State.performEmitting (s : State) (f : Process → Except Raise (Process × List Event)) :
    Host.Outcome State Fault Refusal :=
  match s.current with
  | none => .fault .noCurrentProcess
  | some p =>
    match f p with
    | .ok (q, es) => .next ((s.setCurrent q).console es)
    | .error r => .next (s.raise r)

end Sys2Proof.Machine
end

