-- ==== Sys2Proof/Machine/HostPort.lean ====
section
/-! DEFINITION. The host interface: the block's input ports `reset`, `load`, `start` and `resume`
(R148 to R150, R180, D16). -/

namespace Sys2Proof.Machine

/-- In which run state the block accepts a host call: `reset` in any (R180), `load` and `start` in IDLE
(R148, R149), `resume` in YIELD (R150). -/
def HostCall.acceptedIn (c : HostCall) (m : MState) : Bool :=
  match c with
  | .reset => true
  | .load _ _ _ => decide (m = .idle)
  | .start => decide (m = .idle)
  | .resume => decide (m = .yield)

/-- `reset`: every piece of the block's state at its reset value (R180). The parameters and the host's
own calls to come are not the block's state, and stay (DESIGN CHOICE, log entries 2, 6 and 22). -/
def State.hostReset (s : State) : State := { State.reset with cfg := s.cfg, host := s.host }

/-- Whether a load is within the block's bounds: LEN <= 2^32 - 1 and HEAP_SIZE <= 2^32 (D13), and the
table below its capacity NPROC_MAX (U13). -/
def State.loadFits (s : State) (stream : List Word) (heapSize : Nat) : Bool :=
  decide (stream.length ≤ maxStreamLength) && decide (heapSize ≤ maxHeapSize) &&
    match s.cfg.nprocMax with
    | none => true
    | some n => decide (s.pt.length < n)

/-- `load`: append a new process to the table (R148, R181). A load out of bounds is refused by the port
and changes nothing (U13; DESIGN CHOICE, log entry 5). -/
def State.hostLoad (s : State) (stream : List Word) (heapSize : Nat) (uid : Word) : State :=
  if s.loadFits stream heapSize then
    { s with pt := s.pt ++ [Process.create s.pt.length stream heapSize uid] }
  else s

/-- `start`: begin the run with `CUR = 0` and `QSTEP = 0` (R149). -/
def State.hostStart (s : State) : State := { s with mstate := .run, cur := 0, qstep := 0 }

/-- `resume`: begin the next quantum (R150). -/
def State.hostResume (s : State) : State := { s with mstate := .run, qstep := 0 }

/-- The effect of an accepted host call. -/
def State.hostCall (s : State) : HostCall → State
  | .reset => s.hostReset
  | .load stream heapSize uid => s.hostLoad stream heapSize uid
  | .start => s.hostStart
  | .resume => s.hostResume

/-- The host call that the block takes now, and the machine with that call taken off the list: the first
one still to come, if the block accepts it in its present run state. A call that is not accepted yet waits
(DESIGN CHOICE, log entry 6). -/
def State.dueCall (s : State) : Option (HostCall × State) :=
  match s.host with
  | [] => none
  | c :: rest => if c.acceptedIn s.mstate then some (c, { s with host := rest }) else none

end Sys2Proof.Machine
end

