-- ==== Sys2Proof/WellFormed.lean ====
section
/-! DEFINITION. When an instruction is well-formed: every `reg` operand word names one of the six
registers. R57: the only operand values that are illegal whatever the state are `reg` words of 6 or
more; an address is judged against HEAP_SIZE when it is used, and any `value` and any `target` is legal.

An ill-formed instruction is not a decoding error: it decodes, and raises `BadRegister` when it
executes (R162; DEDUCED, log entry 17).
-/

namespace Sys2Proof

/-- The `reg` operand words of an instruction, in operand order: the 22 opcodes that R162 lists have
one or two, the other nine none. -/
def Instr.regOperands : Instr → List RegWord
  | .syscall => []
  | .movValueToRegister reg _ => [reg]
  | .movRegisterToRegister dst src => [dst, src]
  | .movMemoryToRegister reg _ => [reg]
  | .movValueToMemory _ _ => []
  | .movRegisterToMemory _ reg => [reg]
  | .addValue reg _ => [reg]
  | .addRegister dst src => [dst, src]
  | .subValue reg _ => [reg]
  | .subRegister dst src => [dst, src]
  | .mulValue _ => []
  | .mulRegister reg => [reg]
  | .divValue _ => []
  | .divRegister reg => [reg]
  | .movValueToMemAtRegister reg _ => [reg]
  | .movRegisterToMemAtRegister reg srcReg => [reg, srcReg]
  | .movMemToMem _ _ => []
  | .movMemToMemAtRegister reg _ => [reg]
  | .movMemAtRegisterToRegister reg addrReg => [reg, addrReg]
  | .movMemAtRegisterToMem _ addrReg => [addrReg]
  | .movMemAtRegisterToMemAtRegister reg addrReg => [reg, addrReg]
  | .incrementRegister reg => [reg]
  | .incrementMemory _ => []
  | .incrementMemoryAtRegister reg => [reg]
  | .decrementRegister reg => [reg]
  | .decrementMemory _ => []
  | .decrementMemoryAtRegister reg => [reg]
  | .compareValue reg _ => [reg]
  | .compareRegister reg reg2 => [reg, reg2]
  | .jump _ => []
  | .jumpIfEqual _ => []

/-- A `reg` operand word is legal when its value is 0 to 5 (R52, R162). -/
def regWordOk (w : RegWord) : Bool := decide (w.toNat < 6)

/-- Every `reg` operand word of the instruction is legal. -/
def Instr.wellFormed (i : Instr) : Bool := i.regOperands.all regWordOk

/-- The operand word that `BadRegister` reports: the first illegal one in operand order (R167). -/
def Instr.badRegWord? (i : Instr) : Option RegWord := i.regOperands.find? (fun w => !regWordOk w)

end Sys2Proof
end

