-- ==== Sys2Proof/Decode.lean ====
section
/-! DEFINITION. The decoder, then the encoder (`30_encoding.md`).

An instruction is one opcode word and 0, 1 or 2 operand words (R50). The whole opcode word is the
opcode, unmasked (R51, R56), and each operand is one whole word (R52, R60).
-/

namespace Sys2Proof

/-- Why a list of words holds no instruction at its head. -/
inductive Rejection where
  /-- There is no word at all: the process is not live (R140, first line). -/
  | noWord
  /-- The opcode word is not 0x0 to 0x1e (R56, R160). -/
  | unknownOpcode (op : Word)
  /-- The opcode is defined but an operand word is missing (R161). -/
  | truncated (op : Word)
  deriving DecidableEq, Repr

/-- What the decoder answers: an instruction and the words after it, or a named rejection. -/
inductive Decoded where
  | instr (i : Instr) (rest : List Word)
  | reject (r : Rejection)
  deriving DecidableEq, Repr

/-- `NOPS(op)`, the number of operand words, for the defined opcodes (R53); `none` is an unknown
opcode (R56). -/
def nops (op : Nat) : Option Nat :=
  if op = 0x0 then some 0
  else if op ≤ 0x9 then some 2
  else if op ≤ 0xd then some 1
  else if op ≤ 0x14 then some 2
  else if op ≤ 0x1a then some 1
  else if op ≤ 0x1c then some 2
  else if op ≤ 0x1e then some 1
  else none

/-- The opcode map of R62: the instruction of an opcode and its operand words. An instruction with
fewer operand words than arguments here ignores the others. -/
def instrOf (op : Nat) (w1 w2 : Word) : Option Instr :=
  match op with
  | 0x00 => some .syscall
  | 0x01 => some (.movValueToRegister w1 w2)
  | 0x02 => some (.movRegisterToRegister w1 w2)
  | 0x03 => some (.movMemoryToRegister w1 w2)
  | 0x04 => some (.movValueToMemory w1 w2)
  | 0x05 => some (.movRegisterToMemory w1 w2)
  | 0x06 => some (.addValue w1 w2)
  | 0x07 => some (.addRegister w1 w2)
  | 0x08 => some (.subValue w1 w2)
  | 0x09 => some (.subRegister w1 w2)
  | 0x0a => some (.mulValue w1)
  | 0x0b => some (.mulRegister w1)
  | 0x0c => some (.divValue w1)
  | 0x0d => some (.divRegister w1)
  | 0x0e => some (.movValueToMemAtRegister w1 w2)
  | 0x0f => some (.movRegisterToMemAtRegister w1 w2)
  | 0x10 => some (.movMemToMem w1 w2)
  | 0x11 => some (.movMemToMemAtRegister w1 w2)
  | 0x12 => some (.movMemAtRegisterToRegister w1 w2)
  | 0x13 => some (.movMemAtRegisterToMem w1 w2)
  | 0x14 => some (.movMemAtRegisterToMemAtRegister w1 w2)
  | 0x15 => some (.incrementRegister w1)
  | 0x16 => some (.incrementMemory w1)
  | 0x17 => some (.incrementMemoryAtRegister w1)
  | 0x18 => some (.decrementRegister w1)
  | 0x19 => some (.decrementMemory w1)
  | 0x1a => some (.decrementMemoryAtRegister w1)
  | 0x1b => some (.compareValue w1 w2)
  | 0x1c => some (.compareRegister w1 w2)
  | 0x1d => some (.jump w1)
  | 0x1e => some (.jumpIfEqual w1)
  | _ => none

/-- Decode the instruction at the head of a list of words: the words of a stream from `pc` on. The
order of the tests is R140's: the opcode first (R160), then the operand words' presence (R161). -/
def decode (ws : List Word) : Decoded :=
  match ws with
  | [] => .reject .noWord
  | op :: rest =>
    match nops op.toNat with
    | none => .reject (.unknownOpcode op)
    | some n =>
      if rest.length < n then .reject (.truncated op)
      else
        match instrOf op.toNat (rest.getD 0 0#32) (rest.getD 1 0#32) with
        | none => .reject (.unknownOpcode op)
        | some i => .instr i (rest.drop n)

/-- The opcode of an instruction (R62). -/
def Instr.opcode : Instr → Word
  | .syscall => 0x00#32
  | .movValueToRegister _ _ => 0x01#32
  | .movRegisterToRegister _ _ => 0x02#32
  | .movMemoryToRegister _ _ => 0x03#32
  | .movValueToMemory _ _ => 0x04#32
  | .movRegisterToMemory _ _ => 0x05#32
  | .addValue _ _ => 0x06#32
  | .addRegister _ _ => 0x07#32
  | .subValue _ _ => 0x08#32
  | .subRegister _ _ => 0x09#32
  | .mulValue _ => 0x0a#32
  | .mulRegister _ => 0x0b#32
  | .divValue _ => 0x0c#32
  | .divRegister _ => 0x0d#32
  | .movValueToMemAtRegister _ _ => 0x0e#32
  | .movRegisterToMemAtRegister _ _ => 0x0f#32
  | .movMemToMem _ _ => 0x10#32
  | .movMemToMemAtRegister _ _ => 0x11#32
  | .movMemAtRegisterToRegister _ _ => 0x12#32
  | .movMemAtRegisterToMem _ _ => 0x13#32
  | .movMemAtRegisterToMemAtRegister _ _ => 0x14#32
  | .incrementRegister _ => 0x15#32
  | .incrementMemory _ => 0x16#32
  | .incrementMemoryAtRegister _ => 0x17#32
  | .decrementRegister _ => 0x18#32
  | .decrementMemory _ => 0x19#32
  | .decrementMemoryAtRegister _ => 0x1a#32
  | .compareValue _ _ => 0x1b#32
  | .compareRegister _ _ => 0x1c#32
  | .jump _ => 0x1d#32
  | .jumpIfEqual _ => 0x1e#32

/-- The operand words of an instruction, in stream order (R54, R55). -/
def Instr.operands : Instr → List Word
  | .syscall => []
  | .movValueToRegister reg value => [reg, value]
  | .movRegisterToRegister dst src => [dst, src]
  | .movMemoryToRegister reg addr => [reg, addr]
  | .movValueToMemory addr value => [addr, value]
  | .movRegisterToMemory addr reg => [addr, reg]
  | .addValue reg value => [reg, value]
  | .addRegister dst src => [dst, src]
  | .subValue reg value => [reg, value]
  | .subRegister dst src => [dst, src]
  | .mulValue value => [value]
  | .mulRegister reg => [reg]
  | .divValue value => [value]
  | .divRegister reg => [reg]
  | .movValueToMemAtRegister reg value => [reg, value]
  | .movRegisterToMemAtRegister reg srcReg => [reg, srcReg]
  | .movMemToMem addr addr2 => [addr, addr2]
  | .movMemToMemAtRegister reg addr2 => [reg, addr2]
  | .movMemAtRegisterToRegister reg addrReg => [reg, addrReg]
  | .movMemAtRegisterToMem addr addrReg => [addr, addrReg]
  | .movMemAtRegisterToMemAtRegister reg addrReg => [reg, addrReg]
  | .incrementRegister reg => [reg]
  | .incrementMemory addr => [addr]
  | .incrementMemoryAtRegister reg => [reg]
  | .decrementRegister reg => [reg]
  | .decrementMemory addr => [addr]
  | .decrementMemoryAtRegister reg => [reg]
  | .compareValue reg value => [reg, value]
  | .compareRegister reg reg2 => [reg, reg2]
  | .jump target => [target]
  | .jumpIfEqual target => [target]

/-- The words of an instruction: the opcode word, then the operand words (R50). -/
def encode (i : Instr) : List Word := i.opcode :: i.operands

/-- The words of an instruction given as one number, the first word in the lowest 32 bits, every bit
at or above `nbits` zero, up to the longest instruction, three words (R50). -/
def wordsOfBits (nbits w : Nat) : List Word :=
  let v := w % 2 ^ nbits
  [BitVec.ofNat 32 v, BitVec.ofNat 32 (v / 2 ^ 32), BitVec.ofNat 32 (v / 2 ^ 64)]

/-- The instruction the decoder reads from an instruction given as one number, its words numbered as
`spec/opcode_table.json` numbers them. -/
def decodeTableWord (nbits w : Nat) : Option Instr :=
  match decode (wordsOfBits nbits w) with
  | .instr i _ => some i
  | .reject _ => none

end Sys2Proof
end

