-- ==== Sys2Proof/Machine/Flags.lean ====
section
/-! DEFINITION. Every flag computation of the machine. Three instructions write flags: the two
compares write `zero` and `carry`, add-value writes `carry` (R16); nothing writes `sign` (D22). -/

namespace Sys2Proof.Machine

/-- The instruction writes no flag. -/
def Flags.keep (f : Flags) (_a _b : Word) : Flags := f

/-- `carry <- (a + b > 0xffffffff)`, from the unreduced sum (R101). -/
def Flags.addCarry (f : Flags) (a b : Word) : Flags :=
  { f with carry := decide (a.toNat + b.toNat > 0xffffffff) }

/-- add-register's flags: unchanged, unless the parameter `ADD_REG_WRITES_CARRY` is true (R102, R111, D3;
UNVERIFIED, log entry 4). -/
def Flags.addRegisterCarry (writesCarry : Bool) (f : Flags) (a b : Word) : Flags :=
  if writesCarry then f.addCarry a b else f

/-- The compare rule (R130): `zero <- (a = b)`, `carry <- (a < b)`, unsigned. -/
def Flags.compare (f : Flags) (a b : Word) : Flags :=
  { f with zero := decide (a.toNat = b.toNat), carry := decide (a.toNat < b.toNat) }

end Sys2Proof.Machine
end

