-- ==== Sys2Proof/Machine/Operands.lean ====
section
/-! DEFINITION. The operand forms (R52, R60, R93) and the three operations built on them: copy a word,
combine two words, change one word in place.

An operand is used in two phases, because every `reg` operand is checked before any heap address is
(R167): `Process.place` and `Process.datum` check the register word, and only then `Process.getPlace` and
`Process.putPlace` check the address.
-/

namespace Sys2Proof.Machine

/-- The operand forms that name a storage location (R93). -/
inductive Loc where
  /-- Register direct: `x[w]`. -/
  | reg (w : RegWord)
  /-- Immediate address: `heap[a]`. -/
  | mem (a : Addr)
  /-- Register-indirect: `heap[x[w]]` (C9). -/
  | memAt (w : RegWord)
  deriving DecidableEq, Repr

/-- The operand forms of a source (R80): an immediate or a location. -/
inductive Source where
  | value (v : Value)
  | loc (l : Loc)
  deriving DecidableEq, Repr

/-- A location whose register word has been checked: a register, or a heap index not yet judged against
HEAP_SIZE. -/
inductive Place where
  | reg (r : Reg)
  | cell (a : Word)
  deriving DecidableEq, Repr

/-- A source whose register word has been checked. -/
inductive Datum where
  | value (v : Word)
  | place (pl : Place)
  deriving DecidableEq, Repr

/-- Check the register word of a location and find the place it names; the effective address of R93. -/
def Process.place (p : Process) : Loc → Except Raise Place
  | .reg w => do
    let r ← regOperand w
    return .reg r
  | .mem a => return .cell a
  | .memAt w => do
    let r ← regOperand w
    return .cell (p.reg r)

/-- Check the register word of a source. -/
def Process.datum (p : Process) : Source → Except Raise Datum
  | .value v => return .value v
  | .loc l => do
    let pl ← p.place l
    return .place pl

/-- Read a place (R32). -/
def Process.getPlace (p : Process) : Place → Except Raise Word
  | .reg r => return p.reg r
  | .cell a => p.memRead a

/-- Read a source. -/
def Process.getDatum (p : Process) : Datum → Except Raise Word
  | .value v => return v
  | .place pl => p.getPlace pl

/-- Write a place (R32). -/
def Process.putPlace (p : Process) (pl : Place) (v : Word) : Except Raise Process :=
  match pl with
  | .reg r => return p.setReg r v
  | .cell a => p.memWrite a v

/-- Copy one word (R80), with the checks in the order of R94: the destination's register word (operand
1), the source's register word (operand 2), the source address, the destination address. -/
def Process.copyWord (dst : Loc) (src : Source) (p : Process) : Except Raise Process := do
  let d ← p.place dst
  let x ← p.datum src
  let v ← p.getDatum x
  let q ← p.putPlace d v
  return q.advance 2

/-- `x[w1] <- f x[w1] (second operand)`, the flags as `g` says (R100 to R104, R130): both operands are
read, then the register and the flags are written, then pc advances over two operand words. -/
def Process.combine (w1 : RegWord) (src : Source) (f : Word → Word → Word)
    (g : Flags → Word → Word → Flags) (p : Process) : Except Raise Process := do
  let r ← regOperand w1
  let x ← p.datum src
  let b ← p.getDatum x
  return ((p.setReg r (f (p.reg r) b)).setFlags (g p.flags (p.reg r) b)).advance 2

/-- Change one word in place (R105 to R110): the address is checked once (R167). -/
def Process.modifyWord (l : Loc) (f : Word → Word) (p : Process) : Except Raise Process := do
  let pl ← p.place l
  let v ← p.getPlace pl
  let q ← p.putPlace pl (f v)
  return q.advance 1

end Sys2Proof.Machine
end

