-- ==== Sys2Proof/Machine/Arithmetic.lean ====
section
/-! DEFINITION. Add, subtract, increment, decrement (`42_arithmetic.md`). Every result is the exact one
reduced modulo 2^32 (R100, D4), and of the ten instructions only add-value writes a flag (R111). -/

namespace Sys2Proof.Machine

/-- `(a + b) mod 2^32` (R100). -/
def addWord (a b : Word) : Word := trunc32 (a.toNat + b.toNat)

/-- `(a - b) mod 2^32` (R103): `a - b` when `a >= b`, else `a - b + 2^32`. -/
def subWord (a b : Word) : Word := trunc32 (a.toNat + 2 ^ 32 - b.toNat)

/-- `(v + 1) mod 2^32` (R105). -/
def incWord (v : Word) : Word := addWord v 1#32

/-- `(v - 1) mod 2^32` (R108). -/
def decWord (v : Word) : Word := subWord v 1#32

/-- `add-value`, opcode 0x6: `x[reg] <- x[reg] + value`, and carry (R101). -/
def execAddValue (reg : RegWord) (value : Value) (s : State) : Host.Outcome State Fault Refusal :=
  s.perform (Process.combine reg (.value value) addWord Flags.addCarry)

/-- `add-register`, opcode 0x7: `x[dst] <- x[dst] + x[src]` (R102); carry only where the parameter
`ADD_REG_WRITES_CARRY` says so. -/
def execAddRegister (dst src : RegWord) (s : State) : Host.Outcome State Fault Refusal :=
  s.perform
    (Process.combine dst (.loc (.reg src)) addWord (Flags.addRegisterCarry s.cfg.addRegWritesCarry))

/-- `sub-value`, opcode 0x8: `x[reg] <- x[reg] - value` (R103). -/
def execSubValue (reg : RegWord) (value : Value) (s : State) : Host.Outcome State Fault Refusal :=
  s.perform (Process.combine reg (.value value) subWord Flags.keep)

/-- `sub-register`, opcode 0x9: `x[dst] <- x[dst] - x[src]` (R104). -/
def execSubRegister (dst src : RegWord) (s : State) : Host.Outcome State Fault Refusal :=
  s.perform (Process.combine dst (.loc (.reg src)) subWord Flags.keep)

/-- `increment-register`, opcode 0x15: `x[reg] <- x[reg] + 1` (R105). -/
def execIncrementRegister (reg : RegWord) (s : State) : Host.Outcome State Fault Refusal :=
  s.perform (Process.modifyWord (.reg reg) incWord)

/-- `increment-memory`, opcode 0x16: `heap[addr] <- heap[addr] + 1` (R106). -/
def execIncrementMemory (addr : Addr) (s : State) : Host.Outcome State Fault Refusal :=
  s.perform (Process.modifyWord (.mem addr) incWord)

/-- `increment-memory-at-register`, opcode 0x17: `heap[x[reg]] <- heap[x[reg]] + 1` (R107). -/
def execIncrementMemoryAtRegister (reg : RegWord) (s : State) : Host.Outcome State Fault Refusal :=
  s.perform (Process.modifyWord (.memAt reg) incWord)

/-- `decrement-register`, opcode 0x18: `x[reg] <- x[reg] - 1` (R108). -/
def execDecrementRegister (reg : RegWord) (s : State) : Host.Outcome State Fault Refusal :=
  s.perform (Process.modifyWord (.reg reg) decWord)

/-- `decrement-memory`, opcode 0x19: `heap[addr] <- heap[addr] - 1` and nothing else (R109, C3): the
documented contract, which the original implementation does not follow (U3; UNVERIFIED, log entry 18). -/
def execDecrementMemory (addr : Addr) (s : State) : Host.Outcome State Fault Refusal :=
  s.perform (Process.modifyWord (.mem addr) decWord)

/-- `decrement-memory-at-register`, opcode 0x1a: `heap[x[reg]] <- heap[x[reg]] - 1` (R110, C3, U3;
UNVERIFIED, log entry 18). -/
def execDecrementMemoryAtRegister (reg : RegWord) (s : State) : Host.Outcome State Fault Refusal :=
  s.perform (Process.modifyWord (.memAt reg) decWord)

end Sys2Proof.Machine
end

