-- ==== Sys2Proof/Machine/Control.lean ====
section
/-! DEFINITION. Compare and jump (`44_compare_jump.md`). -/

namespace Sys2Proof.Machine

/-- Compare `x[w1]` with a source: the flags as R130 says, no register written. -/
def Process.compareWith (w1 : RegWord) (src : Source) (p : Process) : Except Raise Process := do
  let r ← regOperand w1
  let x ← p.datum src
  let b ← p.getDatum x
  return (p.setFlags (p.flags.compare (p.reg r) b)).advance 2

/-- `compare-value`, opcode 0x1b: `zero` and `carry` from `x[reg]` against `value` (R131). -/
def execCompareValue (reg : RegWord) (value : Value) (s : State) :
    Host.Outcome State Fault Refusal :=
  s.perform (Process.compareWith reg (.value value))

/-- `compare-register`, opcode 0x1c: `zero` and `carry` from `x[reg]` against `x[reg2]` (R132). -/
def execCompareRegister (reg reg2 : RegWord) (s : State) : Host.Outcome State Fault Refusal :=
  s.perform (Process.compareWith reg (.loc (.reg reg2)))

/-- `jump`, opcode 0x1d: `pc <- target`, any word (R133, R135). -/
def execJump (target : Target) (s : State) : Host.Outcome State Fault Refusal :=
  s.perform fun p => return p.jumpTo target

/-- `jump-if-equal`, opcode 0x1e: `pc <- target` when `zero` is true, else past the operand (R134). -/
def execJumpIfEqual (target : Target) (s : State) : Host.Outcome State Fault Refusal :=
  s.perform fun p => return (if p.flags.zero then p.jumpTo target else p.advance 1)

end Sys2Proof.Machine
end

