-- ==== Sys2Proof/Machine/Move.lean ====
section
/-! DEFINITION. The twelve move instructions (`41_move.md`): all the loads and stores of the machine,
each a copy of one word between two operand forms (R80). -/

namespace Sys2Proof.Machine

/-- `mov-value-to-register`, opcode 0x1: `x[reg] <- value` (R81). -/
def execMovValueToRegister (reg : RegWord) (value : Value) (s : State) :
    Host.Outcome State Fault Refusal :=
  s.perform (Process.copyWord (.reg reg) (.value value))

/-- `mov-register-to-register`, opcode 0x2: `x[dst] <- x[src]` (R82). -/
def execMovRegisterToRegister (dst src : RegWord) (s : State) :
    Host.Outcome State Fault Refusal :=
  s.perform (Process.copyWord (.reg dst) (.loc (.reg src)))

/-- `mov-memory-to-register`, opcode 0x3: `x[reg] <- heap[addr]` (R83). -/
def execMovMemoryToRegister (reg : RegWord) (addr : Addr) (s : State) :
    Host.Outcome State Fault Refusal :=
  s.perform (Process.copyWord (.reg reg) (.loc (.mem addr)))

/-- `mov-value-to-memory`, opcode 0x4: `heap[addr] <- value` (R84). -/
def execMovValueToMemory (addr : Addr) (value : Value) (s : State) :
    Host.Outcome State Fault Refusal :=
  s.perform (Process.copyWord (.mem addr) (.value value))

/-- `mov-register-to-memory`, opcode 0x5: `heap[addr] <- x[reg]` (R85). -/
def execMovRegisterToMemory (addr : Addr) (reg : RegWord) (s : State) :
    Host.Outcome State Fault Refusal :=
  s.perform (Process.copyWord (.mem addr) (.loc (.reg reg)))

/-- `mov-value-to-mem-at-register`, opcode 0xe: `heap[x[reg]] <- value` (R86). -/
def execMovValueToMemAtRegister (reg : RegWord) (value : Value) (s : State) :
    Host.Outcome State Fault Refusal :=
  s.perform (Process.copyWord (.memAt reg) (.value value))

/-- `mov-register-to-mem-at-register`, opcode 0xf: `heap[x[reg]] <- x[srcReg]` (R87). -/
def execMovRegisterToMemAtRegister (reg srcReg : RegWord) (s : State) :
    Host.Outcome State Fault Refusal :=
  s.perform (Process.copyWord (.memAt reg) (.loc (.reg srcReg)))

/-- `mov-mem-to-mem`, opcode 0x10: `heap[addr] <- heap[addr2]` (R88). -/
def execMovMemToMem (addr addr2 : Addr) (s : State) :
    Host.Outcome State Fault Refusal :=
  s.perform (Process.copyWord (.mem addr) (.loc (.mem addr2)))

/-- `mov-mem-to-mem-at-register`, opcode 0x11: `heap[x[reg]] <- heap[addr2]` (R89). -/
def execMovMemToMemAtRegister (reg : RegWord) (addr2 : Addr) (s : State) :
    Host.Outcome State Fault Refusal :=
  s.perform (Process.copyWord (.memAt reg) (.loc (.mem addr2)))

/-- `mov-mem-at-register-to-register`, opcode 0x12: `x[reg] <- heap[x[addrReg]]` (R90). -/
def execMovMemAtRegisterToRegister (reg addrReg : RegWord) (s : State) :
    Host.Outcome State Fault Refusal :=
  s.perform (Process.copyWord (.reg reg) (.loc (.memAt addrReg)))

/-- `mov-mem-at-register-to-mem`, opcode 0x13: `heap[addr] <- heap[x[addrReg]]` (R91). -/
def execMovMemAtRegisterToMem (addr : Addr) (addrReg : RegWord) (s : State) :
    Host.Outcome State Fault Refusal :=
  s.perform (Process.copyWord (.mem addr) (.loc (.memAt addrReg)))

/-- `mov-mem-at-register-to-mem-at-register`, opcode 0x14: `heap[x[reg]] <- heap[x[addrReg]]` (R92). -/
def execMovMemAtRegisterToMemAtRegister (reg addrReg : RegWord) (s : State) :
    Host.Outcome State Fault Refusal :=
  s.perform (Process.copyWord (.memAt reg) (.loc (.memAt addrReg)))

end Sys2Proof.Machine
end

