-- ==== Sys2Proof/Machine/MulDiv.lean ====
section
/-! DEFINITION. Multiply and divide (`43_muldiv.md`) over the double-width pair `(x[3]:x[0])`.

`mulResult` and `divResult` are the configuration functions the spec asks for, with the split constant
`K = MUL_SPLIT` as their argument (R120, D5); for a general `K` they are what `43_muldiv.md` gives after
R125.
-/

namespace Sys2Proof.Machine

/-- The pair a multiply leaves: (`x[0]`, `x[3]`) = (`P mod K`, `P div K`), each truncated to a word, for
the exact product `P` (R121, D5). Which `K` the hardware has is UNVERIFIED (log entry 3). -/
def mulResult (k : Nat) (a b : Word) : Word × Word :=
  let product := a.toNat * b.toNat
  (trunc32 (product % k), trunc32 (product / k))

/-- The pair a divide by `v` leaves: (`x[0]`, `x[3]`) = (`D div v` truncated to a word, `D mod v`), for the
dividend `D = hi * K + lo` (R123, D6). -/
def divResult (k : Nat) (hi lo v : Word) : Word × Word :=
  let dividend := hi.toNat * k + lo.toNat
  (trunc32 (dividend / v.toNat), trunc32 (dividend % v.toNat))

/-- Write (`x[0]`, `x[3]`) and pass the one operand word (R120). -/
def Process.setPair (p : Process) (r : Word × Word) : Process :=
  ((p.setReg .r0 r.1).setReg .r3 r.2).advance 1

/-- Multiply `x[0]` by a source: everything is read before the pair is written (R44, R122). -/
def Process.multiplyBy (k : Nat) (src : Source) (p : Process) : Except Raise Process := do
  let x ← p.datum src
  let b ← p.getDatum x
  return p.setPair (mulResult k (p.reg .r0) b)

/-- Divide the pair by a source; a zero divisor raises `DivideByZero` with the opcode word (R164). -/
def Process.divideBy (k : Nat) (opcode : Word) (src : Source) (p : Process) :
    Except Raise Process := do
  let x ← p.datum src
  let v ← p.getDatum x
  if v = 0#32 then .error ⟨.divideByZero, opcode⟩
  else return p.setPair (divResult k (p.reg .r3) (p.reg .r0) v)

/-- `mul-value`, opcode 0xa: `(x[3]:x[0]) <- x[0] * value` (R121). -/
def execMulValue (value : Value) (s : State) : Host.Outcome State Fault Refusal :=
  s.perform (Process.multiplyBy s.cfg.mulSplit (.value value))

/-- `mul-register`, opcode 0xb: `(x[3]:x[0]) <- x[0] * x[reg]` (R122). -/
def execMulRegister (reg : RegWord) (s : State) : Host.Outcome State Fault Refusal :=
  s.perform (Process.multiplyBy s.cfg.mulSplit (.loc (.reg reg)))

/-- `div-value`, opcode 0xc: quotient and remainder of `(x[3]:x[0])` by `value` (R123). -/
def execDivValue (value : Value) (s : State) : Host.Outcome State Fault Refusal :=
  s.perform (Process.divideBy s.cfg.mulSplit 0xc#32 (.value value))

/-- `div-register`, opcode 0xd: the same by `x[reg]` (R124). -/
def execDivRegister (reg : RegWord) (s : State) : Host.Outcome State Fault Refusal :=
  s.perform (Process.divideBy s.cfg.mulSplit 0xd#32 (.loc (.reg reg)))

end Sys2Proof.Machine
end

