-- ==== Sys2Proof/Machine/Syscall.lean ====
section
/-! DEFINITION. The syscall instruction and its dispatcher (`40_syscall.md`). -/

namespace Sys2Proof.Machine

/-- The heap words `heap[lo], heap[lo+1], …` of a range of `n` words, in ascending order (R71). -/
def Process.heapRange (p : Process) (lo n : Nat) : List Word :=
  (List.range n).map (fun k => p.heapWord (lo + k))

/-- `SysWriteText` (R71): one `Text` event with the raw words of the half-open range `[x[1], x[2])`; an
empty or inverted range emits an empty text (D19); a range that reaches past the heap raises
`HeapBounds` with the first index out of bounds (the edges are UNVERIFIED, log entry 19). -/
def Process.writeText (p : Process) : Except Raise (List Event) :=
  let lo := (p.reg .r1).toNat
  let hi := (p.reg .r2).toNat
  if lo ≥ hi then .ok [.text []]
  else if hi > p.heapSize then .error ⟨.heapBounds, trunc32 (max lo p.heapSize)⟩
  else .ok [.text (p.heapRange lo (hi - lo))]

/-- `SysWriteNumber` (R72): one `Number` event with the raw value of `x[1]`. -/
def Process.writeNumber (p : Process) : List Event := [.number (p.reg .r1)]

/-- The dispatcher (R70, R73): `x[0]` selects the call, and any other number is silently a no-op. -/
def Process.dispatchCall (p : Process) : Except Raise (List Event) :=
  match (p.reg .r0).toNat with
  | 0 => p.writeText
  | 1 => .ok p.writeNumber
  | _ => .ok []

/-- `syscall`, opcode 0x0 (R70). -/
def execSyscall (s : State) : Host.Outcome State Fault Refusal :=
  s.performEmitting fun p => do
    let es ← p.dispatchCall
    return (p.advance 0, es)

end Sys2Proof.Machine
end

