-- ==== Sys2Proof/Machine/Dispatch.lean ====
section
/-! DEFINITION. Dispatch (R141): one arm per instruction, selected by the opcode alone. -/

namespace Sys2Proof.Machine

/-- The meaning of an instruction, performed on the process at the cursor (R141). -/
def exec (i : Instr) (s : State) : Host.Outcome State Fault Refusal :=
  match i with
  | .syscall => Sys2Proof.Machine.execSyscall s
  | .movValueToRegister reg value => Sys2Proof.Machine.execMovValueToRegister reg value s
  | .movRegisterToRegister dst src => Sys2Proof.Machine.execMovRegisterToRegister dst src s
  | .movMemoryToRegister reg addr => Sys2Proof.Machine.execMovMemoryToRegister reg addr s
  | .movValueToMemory addr value => Sys2Proof.Machine.execMovValueToMemory addr value s
  | .movRegisterToMemory addr reg => Sys2Proof.Machine.execMovRegisterToMemory addr reg s
  | .addValue reg value => Sys2Proof.Machine.execAddValue reg value s
  | .addRegister dst src => Sys2Proof.Machine.execAddRegister dst src s
  | .subValue reg value => Sys2Proof.Machine.execSubValue reg value s
  | .subRegister dst src => Sys2Proof.Machine.execSubRegister dst src s
  | .mulValue value => Sys2Proof.Machine.execMulValue value s
  | .mulRegister reg => Sys2Proof.Machine.execMulRegister reg s
  | .divValue value => Sys2Proof.Machine.execDivValue value s
  | .divRegister reg => Sys2Proof.Machine.execDivRegister reg s
  | .movValueToMemAtRegister reg value => Sys2Proof.Machine.execMovValueToMemAtRegister reg value s
  | .movRegisterToMemAtRegister reg srcReg => Sys2Proof.Machine.execMovRegisterToMemAtRegister reg srcReg s
  | .movMemToMem addr addr2 => Sys2Proof.Machine.execMovMemToMem addr addr2 s
  | .movMemToMemAtRegister reg addr2 => Sys2Proof.Machine.execMovMemToMemAtRegister reg addr2 s
  | .movMemAtRegisterToRegister reg addrReg => Sys2Proof.Machine.execMovMemAtRegisterToRegister reg addrReg s
  | .movMemAtRegisterToMem addr addrReg => Sys2Proof.Machine.execMovMemAtRegisterToMem addr addrReg s
  | .movMemAtRegisterToMemAtRegister reg addrReg => Sys2Proof.Machine.execMovMemAtRegisterToMemAtRegister reg addrReg s
  | .incrementRegister reg => Sys2Proof.Machine.execIncrementRegister reg s
  | .incrementMemory addr => Sys2Proof.Machine.execIncrementMemory addr s
  | .incrementMemoryAtRegister reg => Sys2Proof.Machine.execIncrementMemoryAtRegister reg s
  | .decrementRegister reg => Sys2Proof.Machine.execDecrementRegister reg s
  | .decrementMemory addr => Sys2Proof.Machine.execDecrementMemory addr s
  | .decrementMemoryAtRegister reg => Sys2Proof.Machine.execDecrementMemoryAtRegister reg s
  | .compareValue reg value => Sys2Proof.Machine.execCompareValue reg value s
  | .compareRegister reg reg2 => Sys2Proof.Machine.execCompareRegister reg reg2 s
  | .jump target => Sys2Proof.Machine.execJump target s
  | .jumpIfEqual target => Sys2Proof.Machine.execJumpIfEqual target s

end Sys2Proof.Machine
end

