-- ==== Sys2Proof/Machine/Scheduler.lean ====
section
/-! DEFINITION. The executor step and the scheduler step (`45_scheduler.md`). -/

namespace Sys2Proof.Machine

/-- Fetch, decode and perform at most one instruction of the process at the cursor: `ExecStep` (R140).
A process that is not live executes nothing (D11); an unknown opcode and a missing operand word raise
(R160, R161). The rule itself moves pc (R141). -/
def State.execStep (s : State) : Host.Outcome State Fault Refusal :=
  match s.current with
  | none => .fault .noCurrentProcess
  | some p =>
    if p.live then
      match decode p.fetchWords with
      | .instr i _ => exec i s
      | .reject .noWord => .next s
      | .reject (.unknownOpcode op) => .next (s.raise ⟨.unknownOpcode, op⟩)
      | .reject (.truncated op) => .next (s.raise ⟨.truncatedInstruction, op⟩)
    else .next s

/-- The process at the cursor has halted: take it out of the table; `CUR` is not incremented, and wraps
to 0 when it was the last (R144). Its final record is kept (R156; DESIGN CHOICE, log entry 9). -/
def State.removeCurrent (s : State) (p : Process) : State :=
  { s with
    pt := s.pt.eraseIdx s.cur
    cur := if s.cur ≥ (s.pt.eraseIdx s.cur).length then 0 else s.cur
    halted := s.halted ++ [p] }

/-- Advance the cursor circularly (R145). -/
def State.advanceCursor (s : State) : State := { s with cur := (s.cur + 1) % s.pt.length }

/-- What the scheduler does after an executor step that returned: count it, then remove the process or
advance the cursor, by the liveness of the process as the step left it (R142, R143, R146). -/
def State.account (s : State) : State :=
  let t := { s with qstep := s.qstep + 1 }
  match t.current with
  | none => t
  | some p => if p.live then t.advanceCursor else t.removeCurrent p

/-- `SchedStep`, the machine's one transition while `MSTATE = RUN` (R143): the emptiness test first
(R147), then the quantum test (R146), then one executor step. After a raise nothing more happens
(R157). The default of QUANTUM is UNVERIFIED (log entry 20). -/
def State.schedStep (s : State) : Host.Outcome State Fault Refusal :=
  if s.pt.length = 0 then .next { s with mstate := .stopped }
  else if s.qstep = s.cfg.quantum then .next { s with mstate := .yield }
  else
    match s.execStep with
    | .next t => if t.mstate = .aborted then .next t else .next t.account
    | .fault r => .fault r
    | .refused r => .refused r

/-- What the machine does of its own accord: in RUN the scheduler step (R143); in IDLE, YIELD, STOPPED
and ABORTED nothing, so that the step answers the same state (R147, R150, R165, R175; DESIGN CHOICE, log
entry 7). -/
def State.ownStep (s : State) : Host.Outcome State Fault Refusal :=
  match s.mstate with
  | .run => s.schedStep
  | .idle => .next s
  | .yield => .next s
  | .stopped => .next s
  | .aborted => .next s

/-- A stream with words put in from index `at` on; a stream that ends before `at` is first filled up
with zero words. -/
def putWords (stream : List Word) (at' : Nat) (ws : List Word) : List Word :=
  stream.take at' ++ List.replicate (at' - stream.length) 0#32 ++ ws ++ stream.drop (at' + ws.length)

/-- The machine with an instruction's words where its next step fetches: in the stream of the process at
the cursor, at its pc, or, where there is no such process, in the stream of one freshly loaded with the
default heap size and user id; running, with a step left in the quantum and no host call to come (DESIGN
CHOICE, log entry 8). -/
def State.placeWords (s : State) (ws : List Word) : State :=
  let t := { s with
    mstate := .run
    qstep := if s.qstep = s.cfg.quantum then 0 else s.qstep
    host := [] }
  match s.current with
  | some p => t.setCurrent { p with stream := putWords p.stream p.pc.toNat ws }
  | none =>
    { t with
      pt := s.pt ++ [Process.create s.pt.length ws defaultHeapSize defaultUid]
      cur := s.pt.length }

end Sys2Proof.Machine
end

