-- ==== Sys2Proof/Machine/Step.lean ====
section
/-! DEFINITION. One step of the whole machine: a host call that the block accepts now, or else the
machine's own transition. -/

namespace Sys2Proof.Machine

/-- One step. The host acts only before start, at a yield, and by reset (R8, R180); everything else is
the scheduler driving the executor (R143). -/
def step (s : State) : Host.Outcome State Fault Refusal :=
  match s.dueCall with
  | some (c, t) => .next (t.hostCall c)
  | none => s.ownStep

/-- The machine with an instruction, given as one number, placed where `step` fetches next. -/
def State.withFetchWord (s : State) (nbits w : Nat) : State := s.placeWords (wordsOfBits nbits w)

end Sys2Proof.Machine
end

