-- ==== Sys2Proof/Safety.lean ====
section
/-! DEFINITION. The terms in which claims speak: what an instruction may write, what holds of every
reachable state, and how a run ends. -/

namespace Sys2Proof

open Machine

/-! ### What an instruction may write -/

/-- The registers an instruction writes when it does not raise: its destination register, or `x[0]` and
`x[3]` for multiply and divide (R12). -/
def Instr.writesReg (i : Instr) (r : Reg) : Bool :=
  match i with
  | .movValueToRegister reg _ => decide (reg = r.word)
  | .movRegisterToRegister dst _ => decide (dst = r.word)
  | .movMemoryToRegister reg _ => decide (reg = r.word)
  | .movMemAtRegisterToRegister reg _ => decide (reg = r.word)
  | .addValue reg _ => decide (reg = r.word)
  | .addRegister dst _ => decide (dst = r.word)
  | .subValue reg _ => decide (reg = r.word)
  | .subRegister dst _ => decide (dst = r.word)
  | .incrementRegister reg => decide (reg = r.word)
  | .decrementRegister reg => decide (reg = r.word)
  | .mulValue _ => decide (r = .r0) || decide (r = .r3)
  | .mulRegister _ => decide (r = .r0) || decide (r = .r3)
  | .divValue _ => decide (r = .r0) || decide (r = .r3)
  | .divRegister _ => decide (r = .r0) || decide (r = .r3)
  | .syscall => false
  | .movValueToMemory _ _ => false
  | .movRegisterToMemory _ _ => false
  | .movValueToMemAtRegister _ _ => false
  | .movRegisterToMemAtRegister _ _ => false
  | .movMemToMem _ _ => false
  | .movMemToMemAtRegister _ _ => false
  | .movMemAtRegisterToMem _ _ => false
  | .movMemAtRegisterToMemAtRegister _ _ => false
  | .incrementMemory _ => false
  | .incrementMemoryAtRegister _ => false
  | .decrementMemory _ => false
  | .decrementMemoryAtRegister _ => false
  | .compareValue _ _ => false
  | .compareRegister _ _ => false
  | .jump _ => false
  | .jumpIfEqual _ => false

/-- The heap location an instruction stores to, for the twelve that write the heap (R30); `none` for the
others. Its address is `Process.place` of it, which is what the meanings use. -/
def Instr.storeLoc : Instr → Option Loc
  | .movValueToMemory addr _ => some (.mem addr)
  | .movRegisterToMemory addr _ => some (.mem addr)
  | .movValueToMemAtRegister reg _ => some (.memAt reg)
  | .movRegisterToMemAtRegister reg _ => some (.memAt reg)
  | .movMemToMem addr _ => some (.mem addr)
  | .movMemToMemAtRegister reg _ => some (.memAt reg)
  | .movMemAtRegisterToMem addr _ => some (.mem addr)
  | .movMemAtRegisterToMemAtRegister reg _ => some (.memAt reg)
  | .incrementMemory addr => some (.mem addr)
  | .incrementMemoryAtRegister reg => some (.memAt reg)
  | .decrementMemory addr => some (.mem addr)
  | .decrementMemoryAtRegister reg => some (.memAt reg)
  | .syscall => none
  | .movValueToRegister _ _ => none
  | .movRegisterToRegister _ _ => none
  | .movMemoryToRegister _ _ => none
  | .movMemAtRegisterToRegister _ _ => none
  | .addValue _ _ => none
  | .addRegister _ _ => none
  | .subValue _ _ => none
  | .subRegister _ _ => none
  | .mulValue _ => none
  | .mulRegister _ => none
  | .divValue _ => none
  | .divRegister _ => none
  | .incrementRegister _ => none
  | .decrementRegister _ => none
  | .compareValue _ _ => none
  | .compareRegister _ _ => none
  | .jump _ => none
  | .jumpIfEqual _ => none

/-- The instruction is one of the two compares (R130). -/
def Instr.isCompare : Instr → Bool
  | .compareValue _ _ => true
  | .compareRegister _ _ => true
  | _ => false

/-- The instruction may write `carry`: the compares, add-value, and add-register where the parameter
`ADD_REG_WRITES_CARRY` is true (R16, D3). -/
def Instr.writesCarry (i : Instr) (c : Config) : Bool :=
  match i with
  | .compareValue _ _ => true
  | .compareRegister _ _ => true
  | .addValue _ _ => true
  | .addRegister _ _ => c.addRegWritesCarry
  | _ => false

/-- The target of a jump that is taken in a process (R133, R134). -/
def Instr.takenTarget (i : Instr) (p : Process) : Option Word :=
  match i with
  | .jump target => some target
  | .jumpIfEqual target => if p.flags.zero then some target else none
  | _ => none

end Sys2Proof

namespace Sys2Proof.Machine

/-! ### States -/

/-- A fatal fault has been taken and nothing else has happened: the state of R165. -/
def State.abortedBy (s : State) (cause : Cause) (info : Word) : State :=
  { s with mstate := .aborted, acause := cause, aval := info }

/-- The machine is about to take an executor step: running, no host call due, a step left in the quantum
(R143). -/
abbrev State.Ready (s : State) : Prop :=
  s.mstate = .run ∧ s.dueCall = none ∧ s.qstep ≠ s.cfg.quantum

/-- The state with another value of `QUANTUM`. -/
def State.withQuantum (s : State) (n : Nat) : State := { s with cfg := { s.cfg with quantum := n } }

/-- What holds of every process of a reachable state: the heap is canonical and inside HEAP_SIZE, the
creation parameters are within the bounds of D13, and `sign` is false (R16, R17, D22). -/
abbrev Process.Wf (p : Process) : Prop :=
  p.heap.wf = true ∧ (∀ c ∈ p.heap, c.1 < p.heapSize) ∧ p.heapSize ≤ maxHeapSize ∧
    p.stream.length ≤ maxStreamLength ∧ p.flags.sign = false

/-- A process that may stand in the table: it is live (R21), or it was loaded with an empty stream and
has not been stepped yet (D11). -/
abbrev Process.Tabled (p : Process) : Prop := p.live = true ∨ (p.stream = [] ∧ p.pc = 0#32)

/-- The invariant of the machine (R20 to R26, D16, D20). -/
structure State.Inv (s : State) : Prop where
  /-- The parameters are within their bounds (R5, R125). -/
  cfg_valid : s.cfg.Valid
  /-- Every process of the table is well-formed. -/
  pt_wf : ∀ p ∈ s.pt, p.Wf
  /-- Every process of the table may stand there (R21, R142). -/
  pt_tabled : ∀ p ∈ s.pt, p.Tabled
  /-- The table is in load order (R21). -/
  pt_order : s.pt.Pairwise (fun p q => p.loadIndex < q.loadIndex)
  /-- The table is within its capacity (D23). -/
  pt_capacity : ∀ n, s.cfg.nprocMax = some n → s.pt.length ≤ n
  /-- `CUR` is an index into the table, 0 when it is empty (R22). -/
  cursor : s.cur < s.pt.length ∨ (s.pt = [] ∧ s.cur = 0)
  /-- `QSTEP <= QUANTUM` (R23). -/
  qstep_le : s.qstep ≤ s.cfg.quantum
  /-- The abort cause is 0 unless the machine has aborted (R25, R166). -/
  no_cause : s.mstate ≠ .aborted → s.acause = .none ∧ s.aval = 0#32
  /-- An aborted machine has a cause, and the faulting process is at the cursor (R165, R168). -/
  abort_cause : s.mstate = .aborted → s.acause ≠ .none ∧ s.cur < s.pt.length
  /-- Before start nothing has run (R148, R180). -/
  idle : s.mstate = .idle → s.cur = 0 ∧ s.qstep = 0 ∧ s.out = [] ∧ s.halted = [] ∧
    s.pt.map Process.loadIndex = List.range s.pt.length
  /-- A yield is taken at the quantum boundary with processes in the table (R146). -/
  yield : s.mstate = .yield → s.pt ≠ [] ∧ s.qstep = s.cfg.quantum
  /-- The machine stops only with the table empty (R147). -/
  stopped : s.mstate = .stopped → s.pt = []
  /-- A halted process is not live (R142). -/
  halted_dead : ∀ p ∈ s.halted, p.live = false

/-- The run has ended: the good end, or the bad one (R156). -/
abbrev State.Ended (s : State) : Prop := s.mstate = .stopped ∨ s.mstate = .aborted

end Sys2Proof.Machine
end

