-- ==== Sys2Proof/Certificates/Slice0/Obligations.lean ====
section
/-! DEFINITION. The statements for the provers.

Conventions. `p` is the process at the cursor; `r.word` is the operand word that names register `r`, so
`r.word` runs over the legal `reg` operands and `6 ≤ w.toNat` over the illegal ones (`Reg.word_cases`: no
third kind). `s.setCurrent { p with … }` is `s` with that process changed in the named fields and in
nothing else; `s.abortedBy c v` is `s` with MSTATE, ACAUSE and AVAL set and nothing else.

The source that the spec was written from is silent in many places, and the spec then decides, inside the
numbered rule, with a mark `[decision: … D<n>]`. A rule is stated here with the decisions it contains: the
four added faults (D7 to D10), their order (D18), the wrap of every result (D4), the edges of a text range
(D19). Where a statement rests on such decisions as a whole, its docstring names them. -/

open Sys2Proof Sys2Proof.Machine

/-! ### Encoding -/

/-- Decode and encode agree: the decoder reads an instruction from a list of words exactly when the list
begins with that instruction's words. It holds of every instruction, well-formed or not. -/
def Obligations.DecodeReadsExactlyTheEncodings : Prop :=
  ∀ (ws : List Word) (i : Instr) (rest : List Word),
    decode ws = .instr i rest ↔ ws = encode i ++ rest

/-- The two rejections of the decoder, each with the exact condition (R56, R161). -/
def Obligations.DecoderRejectsByName : Prop :=
  (∀ (op : Word) (rest : List Word),
    decode (op :: rest) = .reject (.unknownOpcode op) ↔ 0x1e < op.toNat) ∧
  (∀ (op : Word) (rest : List Word),
    decode (op :: rest) = .reject (.truncated op) ↔
      ∃ n, nops op.toNat = some n ∧ rest.length < n) ∧
  (∀ ws : List Word, decode ws = .reject .noWord ↔ ws = [])

/-- R53: the number of operand words of every opcode. -/
def Obligations.OperandWordCounts : Prop :=
  nops 0x0 = some 0 ∧
  (∀ op, 0x1 ≤ op → op ≤ 0x9 → nops op = some 2) ∧
  (∀ op, 0xa ≤ op → op ≤ 0xd → nops op = some 1) ∧
  (∀ op, 0xe ≤ op → op ≤ 0x14 → nops op = some 2) ∧
  (∀ op, 0x15 ≤ op → op ≤ 0x1a → nops op = some 1) ∧
  (∀ op, 0x1b ≤ op → op ≤ 0x1c → nops op = some 2) ∧
  (∀ op, 0x1d ≤ op → op ≤ 0x1e → nops op = some 1) ∧
  (∀ i : Instr, nops i.opcode.toNat = some (encode i).tail.length)

/-- Words written out from the opcode map, one for each family, decode to the instruction they stand
for. -/
def Obligations.WordsOfTheOpcodeMapDecode : Prop :=
  decode [0x0#32] = .instr .syscall [] ∧
  decode [0x5#32, 16#32, 1#32] = .instr (.movRegisterToMemory 16#32 1#32) [] ∧
  decode [0x14#32, 5#32, 4#32, 9#32] = .instr (.movMemAtRegisterToMemAtRegister 5#32 4#32) [9#32] ∧
  decode [0x8#32, 0#32, 3#32] = .instr (.subValue 0#32 3#32) [] ∧
  decode [0x1a#32, 4#32] = .instr (.decrementMemoryAtRegister 4#32) [] ∧
  decode [0xd#32, 2#32] = .instr (.divRegister 2#32) [] ∧
  decode [0x1c#32, 1#32, 2#32] = .instr (.compareRegister 1#32 2#32) [] ∧
  decode [0x1e#32, 0xb#32] = .instr (.jumpIfEqual 0xb#32) []

/-! ### Syscall -/

/-- Call 0 (R71) writes the heap words of `[x[1], x[2])` as one text event, an empty text for an empty or
inverted range, and raises `HeapBounds` when the range reaches past the heap. The first and the last
clause are the spec's own decision D19 (log entries 19 and 21), in its words: "That an empty or inverted
range emits an empty text and that a range reaching past the heap faults are the spec's choices". -/
def Obligations.SyscallWritesText : Prop :=
  encode .syscall = [0x0#32] ∧
  (∀ (s : State) (p : Process), s.current = some p → p.reg .r0 = 0#32 →
    (p.reg .r2).toNat ≤ (p.reg .r1).toNat →
    exec .syscall s =
      .next ((s.setCurrent { p with pc := p.pc + 1#32 }).console [.text []])) ∧
  (∀ (s : State) (p : Process), s.current = some p → p.reg .r0 = 0#32 →
    (p.reg .r1).toNat < (p.reg .r2).toNat → (p.reg .r2).toNat ≤ p.heapSize →
    ∃ codes : List Word,
      exec .syscall s =
        .next ((s.setCurrent { p with pc := p.pc + 1#32 }).console [.text codes]) ∧
      codes.length = (p.reg .r2).toNat - (p.reg .r1).toNat ∧
      ∀ k, k < codes.length → codes[k]? = some (p.heapWord ((p.reg .r1).toNat + k))) ∧
  (∀ (s : State) (p : Process), s.current = some p → p.reg .r0 = 0#32 →
    (p.reg .r1).toNat < (p.reg .r2).toNat → p.heapSize < (p.reg .r2).toNat →
    ∃ v : Word, v.toNat = max (p.reg .r1).toNat p.heapSize ∧
      exec .syscall s = .next (s.abortedBy .heapBounds v) ∧ Cause.heapBounds.code = 4)

/-- R72 and R73: call 1 writes `x[1]` as one number event; every other call number above it changes
nothing but pc and emits nothing. -/
def Obligations.SyscallWritesNumberOrDoesNothing : Prop :=
  (∀ (s : State) (p : Process), s.current = some p → p.reg .r0 = 1#32 →
    exec .syscall s =
      .next ((s.setCurrent { p with pc := p.pc + 1#32 }).console [.number (p.reg .r1)])) ∧
  (∀ (s : State) (p : Process), s.current = some p → 2 ≤ (p.reg .r0).toNat →
    exec .syscall s = .next (s.setCurrent { p with pc := p.pc + 1#32 }))

/-! ### Moves -/

/-- R81 and R82: a register takes an immediate or another register. -/
def Obligations.MovesOfValueOrRegisterToRegister : Prop :=
  ((∀ w v : Word, encode (.movValueToRegister w v) = [0x1#32, w, v]) ∧
   (∀ (s : State) (p : Process) (r : Reg) (v : Word), s.current = some p →
    exec (.movValueToRegister r.word v) s =
      .next (s.setCurrent { p with regs := p.regs.set r v, pc := p.pc + 3#32 })) ∧
   (∀ (s : State) (p : Process) (w v : Word), s.current = some p → 6 ≤ w.toNat →
    exec (.movValueToRegister w v) s = .next (s.abortedBy .badRegister w))) ∧
  ((∀ w1 w2 : Word, encode (.movRegisterToRegister w1 w2) = [0x2#32, w1, w2]) ∧
   (∀ (s : State) (p : Process) (r r' : Reg), s.current = some p →
    exec (.movRegisterToRegister r.word r'.word) s =
      .next (s.setCurrent { p with regs := p.regs.set r (p.reg r'), pc := p.pc + 3#32 })) ∧
   (∀ (s : State) (p : Process) (w1 w2 : Word), s.current = some p → 6 ≤ w1.toNat →
    exec (.movRegisterToRegister w1 w2) s = .next (s.abortedBy .badRegister w1)) ∧
   (∀ (s : State) (p : Process) (r : Reg) (w2 : Word), s.current = some p → 6 ≤ w2.toNat →
    exec (.movRegisterToRegister r.word w2) s = .next (s.abortedBy .badRegister w2)))

/-- R83 and R90: the two loads. -/
def Obligations.LoadsOfRegister : Prop :=
  ((∀ w a : Word, encode (.movMemoryToRegister w a) = [0x3#32, w, a]) ∧
   (∀ (s : State) (p : Process) (r : Reg) (a : Word), s.current = some p → a.toNat < p.heapSize →
    exec (.movMemoryToRegister r.word a) s =
      .next (s.setCurrent
        { p with regs := p.regs.set r (p.heapWord a.toNat), pc := p.pc + 3#32 })) ∧
   (∀ (s : State) (p : Process) (w a : Word), s.current = some p → 6 ≤ w.toNat →
    exec (.movMemoryToRegister w a) s = .next (s.abortedBy .badRegister w)) ∧
   (∀ (s : State) (p : Process) (r : Reg) (a : Word), s.current = some p → p.heapSize ≤ a.toNat →
    exec (.movMemoryToRegister r.word a) s = .next (s.abortedBy .heapBounds a))) ∧
  ((∀ w1 w2 : Word, encode (.movMemAtRegisterToRegister w1 w2) = [0x12#32, w1, w2]) ∧
   (∀ (s : State) (p : Process) (r r' : Reg), s.current = some p → (p.reg r').toNat < p.heapSize →
    exec (.movMemAtRegisterToRegister r.word r'.word) s =
      .next (s.setCurrent
        { p with regs := p.regs.set r (p.heapWord (p.reg r').toNat), pc := p.pc + 3#32 })) ∧
   (∀ (s : State) (p : Process) (w1 w2 : Word), s.current = some p → 6 ≤ w1.toNat →
    exec (.movMemAtRegisterToRegister w1 w2) s = .next (s.abortedBy .badRegister w1)) ∧
   (∀ (s : State) (p : Process) (r : Reg) (w2 : Word), s.current = some p → 6 ≤ w2.toNat →
    exec (.movMemAtRegisterToRegister r.word w2) s = .next (s.abortedBy .badRegister w2)) ∧
   (∀ (s : State) (p : Process) (r r' : Reg), s.current = some p → p.heapSize ≤ (p.reg r').toNat →
    exec (.movMemAtRegisterToRegister r.word r'.word) s =
      .next (s.abortedBy .heapBounds (p.reg r'))))

/-- R84 and R85: an immediate or a register stored at an immediate address. -/
def Obligations.StoresAtImmediateAddress : Prop :=
  ((∀ a v : Word, encode (.movValueToMemory a v) = [0x4#32, a, v]) ∧
   (∀ (s : State) (p : Process) (a v : Word), s.current = some p → a.toNat < p.heapSize →
    exec (.movValueToMemory a v) s =
      .next (s.setCurrent { p with heap := p.heap.write a.toNat v, pc := p.pc + 3#32 })) ∧
   (∀ (s : State) (p : Process) (a v : Word), s.current = some p → p.heapSize ≤ a.toNat →
    exec (.movValueToMemory a v) s = .next (s.abortedBy .heapBounds a))) ∧
  ((∀ a w : Word, encode (.movRegisterToMemory a w) = [0x5#32, a, w]) ∧
   (∀ (s : State) (p : Process) (a : Word) (r : Reg), s.current = some p → a.toNat < p.heapSize →
    exec (.movRegisterToMemory a r.word) s =
      .next (s.setCurrent { p with heap := p.heap.write a.toNat (p.reg r), pc := p.pc + 3#32 })) ∧
   (∀ (s : State) (p : Process) (a w : Word), s.current = some p → 6 ≤ w.toNat →
    exec (.movRegisterToMemory a w) s = .next (s.abortedBy .badRegister w)) ∧
   (∀ (s : State) (p : Process) (a : Word) (r : Reg), s.current = some p → p.heapSize ≤ a.toNat →
    exec (.movRegisterToMemory a r.word) s = .next (s.abortedBy .heapBounds a)))

/-- R86 and R87: an immediate or a register stored at the address in a register. -/
def Obligations.StoresAtRegisterAddress : Prop :=
  ((∀ w v : Word, encode (.movValueToMemAtRegister w v) = [0xe#32, w, v]) ∧
   (∀ (s : State) (p : Process) (r : Reg) (v : Word), s.current = some p →
    (p.reg r).toNat < p.heapSize →
    exec (.movValueToMemAtRegister r.word v) s =
      .next (s.setCurrent { p with heap := p.heap.write (p.reg r).toNat v, pc := p.pc + 3#32 })) ∧
   (∀ (s : State) (p : Process) (w v : Word), s.current = some p → 6 ≤ w.toNat →
    exec (.movValueToMemAtRegister w v) s = .next (s.abortedBy .badRegister w)) ∧
   (∀ (s : State) (p : Process) (r : Reg) (v : Word), s.current = some p →
    p.heapSize ≤ (p.reg r).toNat →
    exec (.movValueToMemAtRegister r.word v) s = .next (s.abortedBy .heapBounds (p.reg r)))) ∧
  ((∀ w1 w2 : Word, encode (.movRegisterToMemAtRegister w1 w2) = [0xf#32, w1, w2]) ∧
   (∀ (s : State) (p : Process) (r r' : Reg), s.current = some p → (p.reg r).toNat < p.heapSize →
    exec (.movRegisterToMemAtRegister r.word r'.word) s =
      .next (s.setCurrent
        { p with heap := p.heap.write (p.reg r).toNat (p.reg r'), pc := p.pc + 3#32 })) ∧
   (∀ (s : State) (p : Process) (w1 w2 : Word), s.current = some p → 6 ≤ w1.toNat →
    exec (.movRegisterToMemAtRegister w1 w2) s = .next (s.abortedBy .badRegister w1)) ∧
   (∀ (s : State) (p : Process) (r : Reg) (w2 : Word), s.current = some p → 6 ≤ w2.toNat →
    exec (.movRegisterToMemAtRegister r.word w2) s = .next (s.abortedBy .badRegister w2)) ∧
   (∀ (s : State) (p : Process) (r r' : Reg), s.current = some p → p.heapSize ≤ (p.reg r).toNat →
    exec (.movRegisterToMemAtRegister r.word r'.word) s =
      .next (s.abortedBy .heapBounds (p.reg r))))

/-- R88 and R91: a heap word copied to an immediate address. The source address is checked before the
destination address. -/
def Obligations.MemoryCopiesToImmediateAddress : Prop :=
  ((∀ a b : Word, encode (.movMemToMem a b) = [0x10#32, a, b]) ∧
   (∀ (s : State) (p : Process) (a b : Word), s.current = some p →
    a.toNat < p.heapSize → b.toNat < p.heapSize →
    exec (.movMemToMem a b) s =
      .next (s.setCurrent
        { p with heap := p.heap.write a.toNat (p.heapWord b.toNat), pc := p.pc + 3#32 })) ∧
   (∀ (s : State) (p : Process) (a b : Word), s.current = some p → p.heapSize ≤ b.toNat →
    exec (.movMemToMem a b) s = .next (s.abortedBy .heapBounds b)) ∧
   (∀ (s : State) (p : Process) (a b : Word), s.current = some p →
    b.toNat < p.heapSize → p.heapSize ≤ a.toNat →
    exec (.movMemToMem a b) s = .next (s.abortedBy .heapBounds a))) ∧
  ((∀ a w : Word, encode (.movMemAtRegisterToMem a w) = [0x13#32, a, w]) ∧
   (∀ (s : State) (p : Process) (a : Word) (r : Reg), s.current = some p →
    a.toNat < p.heapSize → (p.reg r).toNat < p.heapSize →
    exec (.movMemAtRegisterToMem a r.word) s =
      .next (s.setCurrent
        { p with heap := p.heap.write a.toNat (p.heapWord (p.reg r).toNat), pc := p.pc + 3#32 })) ∧
   (∀ (s : State) (p : Process) (a w : Word), s.current = some p → 6 ≤ w.toNat →
    exec (.movMemAtRegisterToMem a w) s = .next (s.abortedBy .badRegister w)) ∧
   (∀ (s : State) (p : Process) (a : Word) (r : Reg), s.current = some p →
    p.heapSize ≤ (p.reg r).toNat →
    exec (.movMemAtRegisterToMem a r.word) s = .next (s.abortedBy .heapBounds (p.reg r))) ∧
   (∀ (s : State) (p : Process) (a : Word) (r : Reg), s.current = some p →
    (p.reg r).toNat < p.heapSize → p.heapSize ≤ a.toNat →
    exec (.movMemAtRegisterToMem a r.word) s = .next (s.abortedBy .heapBounds a)))

/-- R89 and R92: a heap word copied to the address in a register. The source address is checked before the
destination address. -/
def Obligations.MemoryCopiesToRegisterAddress : Prop :=
  ((∀ w b : Word, encode (.movMemToMemAtRegister w b) = [0x11#32, w, b]) ∧
   (∀ (s : State) (p : Process) (r : Reg) (b : Word), s.current = some p →
    (p.reg r).toNat < p.heapSize → b.toNat < p.heapSize →
    exec (.movMemToMemAtRegister r.word b) s =
      .next (s.setCurrent
        { p with heap := p.heap.write (p.reg r).toNat (p.heapWord b.toNat), pc := p.pc + 3#32 })) ∧
   (∀ (s : State) (p : Process) (w b : Word), s.current = some p → 6 ≤ w.toNat →
    exec (.movMemToMemAtRegister w b) s = .next (s.abortedBy .badRegister w)) ∧
   (∀ (s : State) (p : Process) (r : Reg) (b : Word), s.current = some p → p.heapSize ≤ b.toNat →
    exec (.movMemToMemAtRegister r.word b) s = .next (s.abortedBy .heapBounds b)) ∧
   (∀ (s : State) (p : Process) (r : Reg) (b : Word), s.current = some p →
    b.toNat < p.heapSize → p.heapSize ≤ (p.reg r).toNat →
    exec (.movMemToMemAtRegister r.word b) s = .next (s.abortedBy .heapBounds (p.reg r)))) ∧
  ((∀ w1 w2 : Word, encode (.movMemAtRegisterToMemAtRegister w1 w2) = [0x14#32, w1, w2]) ∧
   (∀ (s : State) (p : Process) (r r' : Reg), s.current = some p →
    (p.reg r).toNat < p.heapSize → (p.reg r').toNat < p.heapSize →
    exec (.movMemAtRegisterToMemAtRegister r.word r'.word) s =
      .next (s.setCurrent
        { p with
          heap := p.heap.write (p.reg r).toNat (p.heapWord (p.reg r').toNat), pc := p.pc + 3#32 })) ∧
   (∀ (s : State) (p : Process) (w1 w2 : Word), s.current = some p → 6 ≤ w1.toNat →
    exec (.movMemAtRegisterToMemAtRegister w1 w2) s = .next (s.abortedBy .badRegister w1)) ∧
   (∀ (s : State) (p : Process) (r : Reg) (w2 : Word), s.current = some p → 6 ≤ w2.toNat →
    exec (.movMemAtRegisterToMemAtRegister r.word w2) s = .next (s.abortedBy .badRegister w2)) ∧
   (∀ (s : State) (p : Process) (r r' : Reg), s.current = some p → p.heapSize ≤ (p.reg r').toNat →
    exec (.movMemAtRegisterToMemAtRegister r.word r'.word) s =
      .next (s.abortedBy .heapBounds (p.reg r'))) ∧
   (∀ (s : State) (p : Process) (r r' : Reg), s.current = some p →
    (p.reg r').toNat < p.heapSize → p.heapSize ≤ (p.reg r).toNat →
    exec (.movMemAtRegisterToMemAtRegister r.word r'.word) s =
      .next (s.abortedBy .heapBounds (p.reg r))))

/-- A store of a register followed by a load from the same address gives the stored word back, in a
canonical heap. -/
def Obligations.StoreThenLoadGivesTheWordBack : Prop :=
  ∀ (s : State) (p : Process) (a : Word) (r r' : Reg), s.current = some p → p.heap.wf = true →
    a.toNat < p.heapSize →
    ∃ t u q, exec (.movRegisterToMemory a r.word) s = .next t ∧
      exec (.movMemoryToRegister r'.word a) t = .next u ∧ u.current = some q ∧
      q.reg r' = p.reg r ∧ q.heapWord a.toNat = p.reg r ∧
      ∀ b, b ≠ a.toNat → q.heapWord b = p.heapWord b

/-! ### Add, subtract, increment, decrement -/

/-- R101: add-value, with carry from the unreduced sum, written both ways. -/
def Obligations.AddValueWrapsAndWritesCarry : Prop :=
  (∀ w v : Word, encode (.addValue w v) = [0x6#32, w, v]) ∧
  (∀ (s : State) (p : Process) (r : Reg) (v : Word), s.current = some p →
    ∃ x : Word, x.toNat = ((p.reg r).toNat + v.toNat) % 2 ^ 32 ∧
      exec (.addValue r.word v) s =
        .next (s.setCurrent { p with
          regs := p.regs.set r x
          flags := { p.flags with carry := decide ((p.reg r).toNat + v.toNat > 0xffffffff) }
          pc := p.pc + 3#32 })) ∧
  (∀ (s : State) (p : Process) (w v : Word), s.current = some p → 6 ≤ w.toNat →
    exec (.addValue w v) s = .next (s.abortedBy .badRegister w))

/-- R102: add-register, which writes no flag where ADD_REG_WRITES_CARRY is false, and carry as add-value
does where it is true. -/
def Obligations.AddRegisterWrapsAndFollowsTheCarryParameter : Prop :=
  (∀ w1 w2 : Word, encode (.addRegister w1 w2) = [0x7#32, w1, w2]) ∧
  (∀ (s : State) (p : Process) (r r' : Reg), s.current = some p →
    ∃ x : Word, x.toNat = ((p.reg r).toNat + (p.reg r').toNat) % 2 ^ 32 ∧
      (s.cfg.addRegWritesCarry = false →
        exec (.addRegister r.word r'.word) s =
          .next (s.setCurrent { p with regs := p.regs.set r x, pc := p.pc + 3#32 })) ∧
      (s.cfg.addRegWritesCarry = true →
        exec (.addRegister r.word r'.word) s =
          .next (s.setCurrent { p with
            regs := p.regs.set r x
            flags := { p.flags with
              carry := decide ((p.reg r).toNat + (p.reg r').toNat > 0xffffffff) }
            pc := p.pc + 3#32 }))) ∧
  (∀ (s : State) (p : Process) (w1 w2 : Word), s.current = some p → 6 ≤ w1.toNat →
    exec (.addRegister w1 w2) s = .next (s.abortedBy .badRegister w1)) ∧
  (∀ (s : State) (p : Process) (r : Reg) (w2 : Word), s.current = some p → 6 ≤ w2.toNat →
    exec (.addRegister r.word w2) s = .next (s.abortedBy .badRegister w2))

/-- R103 and R104: the subtracts, which record a borrow nowhere. -/
def Obligations.SubtractsWrapAndKeepFlags : Prop :=
  ((∀ w v : Word, encode (.subValue w v) = [0x8#32, w, v]) ∧
   (∀ (s : State) (p : Process) (r : Reg) (v : Word), s.current = some p →
    ∃ x : Word, (x.toNat : Int) = ((p.reg r).toNat - v.toNat : Int) % 2 ^ 32 ∧
      exec (.subValue r.word v) s =
        .next (s.setCurrent { p with regs := p.regs.set r x, pc := p.pc + 3#32 })) ∧
   (∀ (s : State) (p : Process) (w v : Word), s.current = some p → 6 ≤ w.toNat →
    exec (.subValue w v) s = .next (s.abortedBy .badRegister w))) ∧
  ((∀ w1 w2 : Word, encode (.subRegister w1 w2) = [0x9#32, w1, w2]) ∧
   (∀ (s : State) (p : Process) (r r' : Reg), s.current = some p →
    ∃ x : Word, (x.toNat : Int) = ((p.reg r).toNat - (p.reg r').toNat : Int) % 2 ^ 32 ∧
      exec (.subRegister r.word r'.word) s =
        .next (s.setCurrent { p with regs := p.regs.set r x, pc := p.pc + 3#32 })) ∧
   (∀ (s : State) (p : Process) (w1 w2 : Word), s.current = some p → 6 ≤ w1.toNat →
    exec (.subRegister w1 w2) s = .next (s.abortedBy .badRegister w1)) ∧
   (∀ (s : State) (p : Process) (r : Reg) (w2 : Word), s.current = some p → 6 ≤ w2.toNat →
    exec (.subRegister r.word w2) s = .next (s.abortedBy .badRegister w2)))

/-- R105 to R107: the increments. -/
def Obligations.IncrementsAddOneToTheirTarget : Prop :=
  ((∀ w : Word, encode (.incrementRegister w) = [0x15#32, w]) ∧
   (∀ (s : State) (p : Process) (r : Reg), s.current = some p →
    ∃ x : Word, x.toNat = ((p.reg r).toNat + 1) % 2 ^ 32 ∧
      exec (.incrementRegister r.word) s =
        .next (s.setCurrent { p with regs := p.regs.set r x, pc := p.pc + 2#32 })) ∧
   (∀ (s : State) (p : Process) (w : Word), s.current = some p → 6 ≤ w.toNat →
    exec (.incrementRegister w) s = .next (s.abortedBy .badRegister w))) ∧
  ((∀ a : Word, encode (.incrementMemory a) = [0x16#32, a]) ∧
   (∀ (s : State) (p : Process) (a : Word), s.current = some p → a.toNat < p.heapSize →
    ∃ x : Word, x.toNat = ((p.heapWord a.toNat).toNat + 1) % 2 ^ 32 ∧
      exec (.incrementMemory a) s =
        .next (s.setCurrent { p with heap := p.heap.write a.toNat x, pc := p.pc + 2#32 })) ∧
   (∀ (s : State) (p : Process) (a : Word), s.current = some p → p.heapSize ≤ a.toNat →
    exec (.incrementMemory a) s = .next (s.abortedBy .heapBounds a))) ∧
  ((∀ w : Word, encode (.incrementMemoryAtRegister w) = [0x17#32, w]) ∧
   (∀ (s : State) (p : Process) (r : Reg), s.current = some p → (p.reg r).toNat < p.heapSize →
    ∃ x : Word, x.toNat = ((p.heapWord (p.reg r).toNat).toNat + 1) % 2 ^ 32 ∧
      exec (.incrementMemoryAtRegister r.word) s =
        .next (s.setCurrent
          { p with heap := p.heap.write (p.reg r).toNat x, pc := p.pc + 2#32 })) ∧
   (∀ (s : State) (p : Process) (w : Word), s.current = some p → 6 ≤ w.toNat →
    exec (.incrementMemoryAtRegister w) s = .next (s.abortedBy .badRegister w)) ∧
   (∀ (s : State) (p : Process) (r : Reg), s.current = some p → p.heapSize ≤ (p.reg r).toNat →
    exec (.incrementMemoryAtRegister r.word) s = .next (s.abortedBy .heapBounds (p.reg r))))

/-- R108 to R110: the decrements; each of the three changes its own target and nothing else. -/
def Obligations.DecrementsSubtractOneFromTheirTarget : Prop :=
  ((∀ w : Word, encode (.decrementRegister w) = [0x18#32, w]) ∧
   (∀ (s : State) (p : Process) (r : Reg), s.current = some p →
    ∃ x : Word, (x.toNat : Int) = ((p.reg r).toNat - 1 : Int) % 2 ^ 32 ∧
      exec (.decrementRegister r.word) s =
        .next (s.setCurrent { p with regs := p.regs.set r x, pc := p.pc + 2#32 })) ∧
   (∀ (s : State) (p : Process) (w : Word), s.current = some p → 6 ≤ w.toNat →
    exec (.decrementRegister w) s = .next (s.abortedBy .badRegister w))) ∧
  ((∀ a : Word, encode (.decrementMemory a) = [0x19#32, a]) ∧
   (∀ (s : State) (p : Process) (a : Word), s.current = some p → a.toNat < p.heapSize →
    ∃ x : Word, (x.toNat : Int) = ((p.heapWord a.toNat).toNat - 1 : Int) % 2 ^ 32 ∧
      exec (.decrementMemory a) s =
        .next (s.setCurrent { p with heap := p.heap.write a.toNat x, pc := p.pc + 2#32 })) ∧
   (∀ (s : State) (p : Process) (a : Word), s.current = some p → p.heapSize ≤ a.toNat →
    exec (.decrementMemory a) s = .next (s.abortedBy .heapBounds a))) ∧
  ((∀ w : Word, encode (.decrementMemoryAtRegister w) = [0x1a#32, w]) ∧
   (∀ (s : State) (p : Process) (r : Reg), s.current = some p → (p.reg r).toNat < p.heapSize →
    ∃ x : Word, (x.toNat : Int) = ((p.heapWord (p.reg r).toNat).toNat - 1 : Int) % 2 ^ 32 ∧
      exec (.decrementMemoryAtRegister r.word) s =
        .next (s.setCurrent
          { p with heap := p.heap.write (p.reg r).toNat x, pc := p.pc + 2#32 })) ∧
   (∀ (s : State) (p : Process) (w : Word), s.current = some p → 6 ≤ w.toNat →
    exec (.decrementMemoryAtRegister w) s = .next (s.abortedBy .badRegister w)) ∧
   (∀ (s : State) (p : Process) (r : Reg), s.current = some p → p.heapSize ≤ (p.reg r).toNat →
    exec (.decrementMemoryAtRegister r.word) s = .next (s.abortedBy .heapBounds (p.reg r))))

/-! ### Multiply and divide -/

/-- The two multiplies for every split constant K: the product's low part to `x[0]`, its high part to
`x[3]`, and with K = 2^32 (R121, R122) the pair is the exact product (R125). For another K this is the
spec's own reading, after R125 ("For a model that keeps `K` general (any K >= 1), the spec's reading is"),
and its decision D5; which K the hardware has is UNVERIFIED (log entry 3). -/
def Obligations.MultipliesStoreTheProductInThePair : Prop :=
  ((∀ v : Word, encode (.mulValue v) = [0xa#32, v]) ∧
   (∀ (s : State) (p : Process) (v : Word), s.current = some p →
    ∃ lo hi : Word,
      lo.toNat = ((p.reg .r0).toNat * v.toNat % s.cfg.mulSplit) % 2 ^ 32 ∧
      hi.toNat = ((p.reg .r0).toNat * v.toNat / s.cfg.mulSplit) % 2 ^ 32 ∧
      (s.cfg.mulSplit = 2 ^ 32 → hi.toNat * 2 ^ 32 + lo.toNat = (p.reg .r0).toNat * v.toNat) ∧
      exec (.mulValue v) s =
        .next (s.setCurrent
          { p with regs := (p.regs.set .r0 lo).set .r3 hi, pc := p.pc + 2#32 }))) ∧
  ((∀ w : Word, encode (.mulRegister w) = [0xb#32, w]) ∧
   (∀ (s : State) (p : Process) (r : Reg), s.current = some p →
    ∃ lo hi : Word,
      lo.toNat = ((p.reg .r0).toNat * (p.reg r).toNat % s.cfg.mulSplit) % 2 ^ 32 ∧
      hi.toNat = ((p.reg .r0).toNat * (p.reg r).toNat / s.cfg.mulSplit) % 2 ^ 32 ∧
      (s.cfg.mulSplit = 2 ^ 32 →
        hi.toNat * 2 ^ 32 + lo.toNat = (p.reg .r0).toNat * (p.reg r).toNat) ∧
      exec (.mulRegister r.word) s =
        .next (s.setCurrent
          { p with regs := (p.regs.set .r0 lo).set .r3 hi, pc := p.pc + 2#32 })) ∧
   (∀ (s : State) (p : Process) (w : Word), s.current = some p → 6 ≤ w.toNat →
    exec (.mulRegister w) s = .next (s.abortedBy .badRegister w)))

/-- The two divides for every split constant K: the quotient of `x[3] * K + x[0]`, truncated, to `x[0]`
and the remainder to `x[3]`; a zero divisor raises `DivideByZero`. R123 and R124 fix K = 2^32; for another
K this is the spec's own reading, after R125, and its decision D5 (UNVERIFIED, log entry 3). The
truncation is its decision D6, the fault its decision D7, and that `x[3]` takes the remainder its own
reading ("The spec reads slot 3's result as the remainder", C10; log entry 21). -/
def Obligations.DividesSplitThePairIntoQuotientAndRemainder : Prop :=
  ((∀ v : Word, encode (.divValue v) = [0xc#32, v]) ∧
   (∀ (s : State) (p : Process) (v : Word), s.current = some p → v ≠ 0#32 →
    ∃ quo rem : Word,
      quo.toNat = (((p.reg .r3).toNat * s.cfg.mulSplit + (p.reg .r0).toNat) / v.toNat) % 2 ^ 32 ∧
      rem.toNat = ((p.reg .r3).toNat * s.cfg.mulSplit + (p.reg .r0).toNat) % v.toNat ∧
      exec (.divValue v) s =
        .next (s.setCurrent
          { p with regs := (p.regs.set .r0 quo).set .r3 rem, pc := p.pc + 2#32 })) ∧
   (∀ (s : State) (p : Process), s.current = some p →
    exec (.divValue 0#32) s = .next (s.abortedBy .divideByZero 0xc#32) ∧
      Cause.divideByZero.code = 5)) ∧
  ((∀ w : Word, encode (.divRegister w) = [0xd#32, w]) ∧
   (∀ (s : State) (p : Process) (r : Reg), s.current = some p → p.reg r ≠ 0#32 →
    ∃ quo rem : Word,
      quo.toNat =
        (((p.reg .r3).toNat * s.cfg.mulSplit + (p.reg .r0).toNat) / (p.reg r).toNat) % 2 ^ 32 ∧
      rem.toNat = ((p.reg .r3).toNat * s.cfg.mulSplit + (p.reg .r0).toNat) % (p.reg r).toNat ∧
      exec (.divRegister r.word) s =
        .next (s.setCurrent
          { p with regs := (p.regs.set .r0 quo).set .r3 rem, pc := p.pc + 2#32 })) ∧
   (∀ (s : State) (p : Process) (w : Word), s.current = some p → 6 ≤ w.toNat →
    exec (.divRegister w) s = .next (s.abortedBy .badRegister w)) ∧
   (∀ (s : State) (p : Process) (r : Reg), s.current = some p → p.reg r = 0#32 →
    exec (.divRegister r.word) s = .next (s.abortedBy .divideByZero 0xd#32)))

/-- With K = 2^32, a multiply followed by a divide by the same non-zero value restores `x[0]` and leaves
`x[3]` at 0 (R125). -/
def Obligations.MultiplyThenDivideRestores : Prop :=
  ∀ (s : State) (p : Process) (v : Word), s.current = some p → s.cfg.mulSplit = 2 ^ 32 → v ≠ 0#32 →
    ∃ t u q, exec (.mulValue v) s = .next t ∧ exec (.divValue v) t = .next u ∧
      u.current = some q ∧ q.reg .r0 = p.reg .r0 ∧ q.reg .r3 = 0#32 ∧ q.flags = p.flags

/-! ### Compare and jump -/

/-- R130, R131, R132: the compares write `zero` and `carry` by the unsigned relation and nothing else but
pc. -/
def Obligations.ComparesSetZeroAndCarry : Prop :=
  ((∀ w v : Word, encode (.compareValue w v) = [0x1b#32, w, v]) ∧
   (∀ (s : State) (p : Process) (r : Reg) (v : Word), s.current = some p →
    ∃ z c : Bool,
      ((p.reg r).toNat = v.toNat → z = true ∧ c = false) ∧
      ((p.reg r).toNat < v.toNat → z = false ∧ c = true) ∧
      (v.toNat < (p.reg r).toNat → z = false ∧ c = false) ∧
      exec (.compareValue r.word v) s =
        .next (s.setCurrent
          { p with flags := { p.flags with zero := z, carry := c }, pc := p.pc + 3#32 })) ∧
   (∀ (s : State) (p : Process) (w v : Word), s.current = some p → 6 ≤ w.toNat →
    exec (.compareValue w v) s = .next (s.abortedBy .badRegister w))) ∧
  ((∀ w1 w2 : Word, encode (.compareRegister w1 w2) = [0x1c#32, w1, w2]) ∧
   (∀ (s : State) (p : Process) (r r' : Reg), s.current = some p →
    ∃ z c : Bool,
      ((p.reg r).toNat = (p.reg r').toNat → z = true ∧ c = false) ∧
      ((p.reg r).toNat < (p.reg r').toNat → z = false ∧ c = true) ∧
      ((p.reg r').toNat < (p.reg r).toNat → z = false ∧ c = false) ∧
      exec (.compareRegister r.word r'.word) s =
        .next (s.setCurrent
          { p with flags := { p.flags with zero := z, carry := c }, pc := p.pc + 3#32 })) ∧
   (∀ (s : State) (p : Process) (w1 w2 : Word), s.current = some p → 6 ≤ w1.toNat →
    exec (.compareRegister w1 w2) s = .next (s.abortedBy .badRegister w1)) ∧
   (∀ (s : State) (p : Process) (r : Reg) (w2 : Word), s.current = some p → 6 ≤ w2.toNat →
    exec (.compareRegister r.word w2) s = .next (s.abortedBy .badRegister w2)))

/-- R133 and R134: jump always takes its target, any word; jump-if-equal takes it when `zero` is true and
else falls through past its operand. -/
def Obligations.JumpsWriteOnlyThePc : Prop :=
  (∀ target : Word, encode (.jump target) = [0x1d#32, target]) ∧
  (∀ (s : State) (p : Process) (target : Word), s.current = some p →
    exec (.jump target) s = .next (s.setCurrent { p with pc := target })) ∧
  (∀ target : Word, encode (.jumpIfEqual target) = [0x1e#32, target]) ∧
  (∀ (s : State) (p : Process) (target : Word), s.current = some p → p.flags.zero = true →
    exec (.jumpIfEqual target) s = .next (s.setCurrent { p with pc := target })) ∧
  (∀ (s : State) (p : Process) (target : Word), s.current = some p → p.flags.zero = false →
    exec (.jumpIfEqual target) s = .next (s.setCurrent { p with pc := p.pc + 2#32 }))

/-! ### Frames over all instructions -/

/-- Every register keeps its value except those the instruction writes: its destination register, and
`x[0]` and `x[3]` for multiply and divide (R11, R12). -/
def Obligations.RegisterFrame : Prop :=
  ∀ (i : Instr) (s t : State) (p q : Process) (r : Reg), exec i s = .next t →
    s.current = some p → t.current = some q → i.writesReg r = false → q.reg r = p.reg r

/-- Every heap word keeps its value except the one word at the address the instruction stores to, as
`Process.place` computes it from the state before; an instruction that stores nothing changes none
(R30, R36, R80). -/
def Obligations.HeapFrame : Prop :=
  ∀ (i : Instr) (s t : State) (p q : Process), exec i s = .next t →
    s.current = some p → t.current = some q →
    (∀ (l : Loc) (a : Word), i.storeLoc = some l → p.place l = .ok (.cell a) →
      ∀ b, b ≠ a.toNat → q.heapWord b = p.heapWord b) ∧
    (i.storeLoc = none → ∀ b, q.heapWord b = p.heapWord b)

/-- Flags: `zero` is written by the compares alone, `carry` by the compares and add-value (and add-register
where the parameter says so), `sign` by nothing (R16). -/
def Obligations.FlagFrame : Prop :=
  ∀ (i : Instr) (s t : State) (p q : Process), exec i s = .next t →
    s.current = some p → t.current = some q →
    q.flags.sign = p.flags.sign ∧
    (i.isCompare = false → q.flags.zero = p.flags.zero) ∧
    (i.writesCarry s.cfg = false → q.flags.carry = p.flags.carry)

/-- Only jump-if-equal reads a flag, and it reads `zero` alone: with other flags in the process (the same
`zero` for jump-if-equal) an instruction leaves the same registers, heap and pc, emits the same events
and faults alike (R16). -/
def Obligations.OnlyJumpIfEqualReadsAFlag : Prop :=
  ∀ (i : Instr) (s t : State) (p : Process) (f : Flags), s.current = some p →
    ((∃ target, i = .jumpIfEqual target) → f.zero = p.flags.zero) → exec i s = .next t →
    ∃ t', exec i (s.setCurrent { p with flags := f }) = .next t' ∧
      t'.mstate = t.mstate ∧ t'.acause = t.acause ∧ t'.aval = t.aval ∧ t'.out = t.out ∧
      ∀ q q', t.current = some q → t'.current = some q' →
        q'.regs = q.regs ∧ q'.heap = q.heap ∧ q'.pc = q.pc

/-- R14: unless it is a taken jump, an instruction that does not fault moves pc past itself; a taken jump
writes its target; a faulting instruction leaves pc. -/
def Obligations.ProgramCounterRule : Prop :=
  ∀ (i : Instr) (s t : State) (p q : Process), s.mstate = .run → exec i s = .next t →
    s.current = some p → t.current = some q →
    (t.mstate = .aborted → q.pc = p.pc) ∧
    (t.mstate ≠ .aborted → ∀ target, i.takenTarget p = some target → q.pc = target) ∧
    (t.mstate ≠ .aborted → i.takenTarget p = none →
      q.pc = p.pc + BitVec.ofNat 32 (encode i).length)

/-- An instruction touches the process at the cursor and nothing else of the machine, but for appending to
OUT (syscall alone) and for MSTATE, ACAUSE and AVAL on a fault; of its process it never touches the
creation parameters (R4, R18, R27, R45). -/
def Obligations.InstructionsTouchOnlyTheirOwnProcess : Prop :=
  ∀ (i : Instr) (s t : State), exec i s = .next t →
    t.cfg = s.cfg ∧ t.cur = s.cur ∧ t.qstep = s.qstep ∧ t.halted = s.halted ∧ t.host = s.host ∧
    t.pt.length = s.pt.length ∧ (∀ k, k ≠ s.cur → t.pt[k]? = s.pt[k]?) ∧
    (∃ es, t.out = s.out ++ es ∧ (i ≠ .syscall → es = [])) ∧
    (t.mstate = s.mstate ∧ t.acause = s.acause ∧ t.aval = s.aval ∨
      t.mstate = .aborted ∧ t.out = s.out ∧ t.pt = s.pt) ∧
    ∃ p q, s.current = some p ∧ t.current = some q ∧ q.stream = p.stream ∧
      q.heapSize = p.heapSize ∧ q.uid = p.uid ∧ q.loadIndex = p.loadIndex

/-- What an instruction does is a function of its own process and the parameters: two machines that agree
on these, and on nothing else, do the same to that process, emit the same events and take the same
fault (R9, R27, R45). -/
def Obligations.InstructionsSeeOnlyTheirOwnProcess : Prop :=
  ∀ (i : Instr) (s s' t : State) (p : Process), s.mstate = .run → s'.mstate = .run →
    s.current = some p → s'.current = some p → s'.cfg = s.cfg → exec i s = .next t →
    ∃ t', exec i s' = .next t' ∧ t'.current = t.current ∧ t'.mstate = t.mstate ∧
      (t.mstate = .aborted → t'.acause = t.acause ∧ t'.aval = t.aval) ∧
      ∃ es, t.out = s.out ++ es ∧ t'.out = s'.out ++ es

/-- Every read and every check comes before the first write: the consequences that R44 lists. The rule is
the spec's own decision D24 (log entry 21), in its words: "Every instruction reads all its source values
(registers, heap words, flags) before it writes any destination." Of mov-mem-to-mem from an address to
itself this says that registers and heap words are left as they were; its whole next state is in
`MemoryCopiesToImmediateAddress`. -/
def Obligations.ReadsComeBeforeWrites : Prop :=
  ∀ (s : State) (p : Process) (r : Reg) (a : Word), s.current = some p →
    (exec (.movRegisterToRegister r.word r.word) s = .next (s.setCurrent { p with pc := p.pc + 3#32 })) ∧
    (p.heap.wf = true → a.toNat < p.heapSize →
      ∃ t q, exec (.movMemToMem a a) s = .next t ∧ t.current = some q ∧ q.regs = p.regs ∧
        ∀ b, q.heapWord b = p.heapWord b) ∧
    (∃ t q, exec (.addRegister r.word r.word) s = .next t ∧ t.current = some q ∧
      (q.reg r).toNat = 2 * (p.reg r).toNat % 2 ^ 32) ∧
    (∃ t q, exec (.subRegister r.word r.word) s = .next t ∧ t.current = some q ∧ q.reg r = 0#32) ∧
    (s.cfg.mulSplit = 2 ^ 32 →
      (∃ t q, exec (.mulRegister Reg.r0.word) s = .next t ∧ t.current = some q ∧
        (q.reg .r3).toNat * 2 ^ 32 + (q.reg .r0).toNat = (p.reg .r0).toNat * (p.reg .r0).toNat) ∧
      (∃ t q, exec (.mulRegister Reg.r3.word) s = .next t ∧ t.current = some q ∧
        (q.reg .r3).toNat * 2 ^ 32 + (q.reg .r0).toNat = (p.reg .r0).toNat * (p.reg .r3).toNat) ∧
      (∀ d, (d = .r0 ∨ d = .r3) → p.reg d ≠ 0#32 →
        ∃ t q, exec (.divRegister d.word) s = .next t ∧ t.current = some q ∧
          (q.reg .r0).toNat =
            ((p.reg .r3).toNat * 2 ^ 32 + (p.reg .r0).toNat) / (p.reg d).toNat % 2 ^ 32 ∧
          (q.reg .r3).toNat =
            ((p.reg .r3).toNat * 2 ^ 32 + (p.reg .r0).toNat) % (p.reg d).toNat))

/-! ### Fatal faults -/

/-- An instruction with an illegal `reg` operand, whichever instruction and whatever the rest of the state,
raises `BadRegister` with the first illegal operand word, and no other instruction does. This is the spec's
own decision D8 (R162): "Fatal fault `BadRegister` (code 3, AVAL = the operand word), precise." -/
def Obligations.IllFormedInstructionsRaiseBadRegister : Prop :=
  (∀ (i : Instr) (s : State) (p : Process) (w : Word), s.current = some p →
    i.badRegWord? = some w →
    exec i s = .next (s.abortedBy .badRegister w) ∧ Cause.badRegister.code = 3) ∧
  (∀ (i : Instr) (s t : State), s.acause ≠ .badRegister → i.wellFormed = true →
    exec i s = .next t → t.acause ≠ .badRegister)

/-- R160: a word at pc that is not an opcode aborts the whole machine, and nothing else changes. -/
def Obligations.UnknownOpcodeAbortsTheMachine : Prop :=
  ∀ (s : State) (p : Process) (op : Word), s.Ready → s.current = some p →
    p.stream[p.pc.toNat]? = some op → 0x1e < op.toNat →
    step s = .next (s.abortedBy .unknownOpcode op) ∧ Cause.unknownOpcode.code = 1

/-- A defined opcode with an operand word at or beyond the end of the stream aborts the whole machine, and
nothing else changes. This is the spec's own decision D10 (R161): "Fatal fault `TruncatedInstruction` (code
2, AVAL = the opcode word) when pc + NOPS(op) >= LEN, detected before any operand is used." -/
def Obligations.TruncatedInstructionAbortsTheMachine : Prop :=
  ∀ (s : State) (p : Process) (op : Word) (n : Nat), s.Ready → s.current = some p →
    p.stream[p.pc.toNat]? = some op → nops op.toNat = some n → p.len ≤ p.pc.toNat + n →
    step s = .next (s.abortedBy .truncatedInstruction op) ∧ Cause.truncatedInstruction.code = 2

/-- Abort entry (R165, R157, R168, which the spec marks as its decision D17): whenever a step aborts the
machine, MSTATE, ACAUSE and AVAL have been set, to one of the five causes, and nothing else in the machine
has changed; and an aborted machine does nothing more unless the host resets it. That a call other than a
reset then waits on the host's list is THE MODEL'S CHOICE (log entry 6). -/
def Obligations.FaultsArePreciseAndTerminal : Prop :=
  (∀ s t : State, s.Ready → step s = .next t → t.mstate = .aborted →
    ∃ (c : Cause) (v : Word), c ≠ .none ∧ t = s.abortedBy c v) ∧
  (∀ s : State, s.mstate = .aborted → (∀ rest, s.host ≠ .reset :: rest) → step s = .next s)

/-! ### The step, the scheduler and the host interface -/

/-- A step runs the decoded instruction: with a step due and an instruction's words at pc, `step` is `exec`
of it followed by the scheduler's accounting (R140 to R146): nothing more after a fault; QSTEP counted, and
the cursor advanced when the process is still live; QSTEP counted, the process removed and the cursor
wrapped when it is not. -/
def Obligations.StepRunsTheDecodedInstruction : Prop :=
  ∀ (s : State) (p : Process) (i : Instr) (rest : List Word), s.Ready → s.current = some p →
    decode p.fetchWords = .instr i rest →
    ∃ t q, exec i s = .next t ∧ t.current = some q ∧
      (t.mstate = .aborted → step s = .next t) ∧
      (t.mstate ≠ .aborted → q.pc.toNat < q.len →
        step s = .next { t with qstep := s.qstep + 1, cur := (s.cur + 1) % s.pt.length }) ∧
      (t.mstate ≠ .aborted → q.len ≤ q.pc.toNat →
        step s = .next { t with
          qstep := s.qstep + 1
          pt := s.pt.eraseIdx s.cur
          cur := if s.cur + 1 = s.pt.length then 0 else s.cur
          halted := s.halted ++ [q] })

/-- A process whose pc is already outside its stream executes nothing and halts: it is removed, and the
step is counted (R140, D11). -/
def Obligations.StepOnAProcessThatIsNotLive : Prop :=
  ∀ (s : State) (p : Process), s.Ready → s.current = some p → p.len ≤ p.pc.toNat →
    step s = .next { s with
      qstep := s.qstep + 1
      pt := s.pt.eraseIdx s.cur
      cur := if s.cur + 1 = s.pt.length then 0 else s.cur
      halted := s.halted ++ [p] }

/-- An empty table stops the machine (R147), before the quantum is looked at (the spec's decision D20); a
machine started with an empty table stops at its first transition; and a stopped machine does nothing more
unless the host resets it. That a call other than a reset then waits on the host's list is THE MODEL'S
CHOICE (log entry 6). -/
def Obligations.EmptyTableStopsTheMachine : Prop :=
  (∀ s : State, s.mstate = .run → s.dueCall = none → s.pt = [] →
    step s = .next { s with mstate := .stopped }) ∧
  (∀ s : State, s.mstate = .idle → s.host = [.start] → s.pt = [] →
    Sys2Proof.core.run 2 s =
      .next { s with mstate := .stopped, cur := 0, qstep := 0, host := [] }) ∧
  (∀ s : State, s.mstate = .stopped → (∀ rest, s.host ≠ .reset :: rest) → step s = .next s)

/-- With the quantum used up and processes in the table the machine yields and executes nothing; the
host's resume begins the next quantum, and the two transitions together change QSTEP alone (R146, R150).
The second clause begins with the resume already on the host's list while the machine runs: that such a
call waits until the yield is THE MODEL'S CHOICE (log entry 6), and no rule. -/
def Obligations.QuantumBoundaryYieldsAndResumes : Prop :=
  (∀ s : State, s.mstate = .run → s.dueCall = none → s.pt ≠ [] → s.qstep = s.cfg.quantum →
    step s = .next { s with mstate := .yield }) ∧
  (∀ (s : State) (rest : List HostCall), s.mstate = .run → s.host = .resume :: rest → s.pt ≠ [] →
    s.qstep = s.cfg.quantum →
    Sys2Proof.core.run 2 s = .next { s with qstep := 0, host := rest })

/-- In YIELD the machine does nothing until the host resumes or resets it; `resume` is taken in
YIELD only (R150, D16). That a call made too early waits is THE MODEL'S CHOICE (log entry 6). -/
def Obligations.ResumeIsTakenInYieldOnly : Prop :=
  (∀ s : State, s.mstate = .yield → s.dueCall = none → step s = .next s) ∧
  (∀ (s : State) (rest : List HostCall), s.host = .resume :: rest → s.mstate = .yield →
    step s = .next { s with mstate := .run, qstep := 0, host := rest }) ∧
  (∀ (s : State) (rest : List HostCall), s.host = .resume :: rest → s.mstate ≠ .yield →
    s.dueCall = none ∧ ∀ t, step s = .next t → t.host = s.host)

/-- R149, the spec's decision D16: `start` is taken in IDLE only and sets RUN, CUR = 0, QSTEP = 0; no
process is added by any step outside IDLE. -/
def Obligations.StartIsTakenInIdleOnly : Prop :=
  (∀ (s : State) (rest : List HostCall), s.host = .start :: rest → s.mstate = .idle →
    step s = .next { s with mstate := .run, cur := 0, qstep := 0, host := rest }) ∧
  (∀ (s : State) (rest : List HostCall), s.host = .start :: rest → s.mstate ≠ .idle →
    s.dueCall = none) ∧
  (∀ s t : State, s.mstate ≠ .idle → step s = .next t → t.pt.length ≤ s.pt.length)

/-- R148 and R181, with the spec's decisions D13, D14 and D23: `load` in IDLE, and only there, appends a
new process with registers 0, flags false, every heap word 0 and pc 0, whatever its stream, within the
bounds of LEN and HEAP_SIZE (D13) and the capacity of the table (D23); the heap size is 256 and the user
id 0 where the host names none. -/
def Obligations.LoadAppendsAFreshProcess : Prop :=
  (∀ (s : State) (stream : List Word) (heapSize : Nat) (uid : Word) (rest : List HostCall),
    s.mstate = .idle → s.host = .load stream heapSize uid :: rest →
    stream.length ≤ 2 ^ 32 - 1 → heapSize ≤ 2 ^ 32 →
    (∀ n, s.cfg.nprocMax = some n → s.pt.length < n) →
    ∃ p : Process, step s = .next { s with pt := s.pt ++ [p], host := rest } ∧
      (∀ r, p.reg r = 0#32) ∧ p.flags = ⟨false, false, false⟩ ∧ (∀ a, p.heapWord a = 0#32) ∧
      p.pc = 0#32 ∧ p.stream = stream ∧ p.heapSize = heapSize ∧ p.uid = uid) ∧
  (∀ (s : State) (stream : List Word) (heapSize : Nat) (uid : Word) (rest : List HostCall),
    s.mstate ≠ .idle → s.host = .load stream heapSize uid :: rest → s.dueCall = none) ∧
  (∀ stream : List Word, (HostCall.load stream : HostCall) = .load stream 256 0#32)

/-- A load outside the bounds of LEN and HEAP_SIZE (D13), or beyond the capacity of the table (U13), is
turned away: the call is taken off and nothing else changes. THE MODEL'S CHOICE, log entry 5. -/
def Obligations.LoadOutOfBoundsChangesNothing : Prop :=
  ∀ (s : State) (stream : List Word) (heapSize : Nat) (uid : Word) (rest : List HostCall),
    s.mstate = .idle → s.host = .load stream heapSize uid :: rest →
    2 ^ 32 - 1 < stream.length ∨ 2 ^ 32 < heapSize ∨
      (∃ n, s.cfg.nprocMax = some n ∧ n ≤ s.pt.length) →
    step s = .next { s with host := rest }

/-- R180, the spec's decision D16: `reset` in any state leaves nothing: the table empty, the cursor and
the counter 0, IDLE, no cause, no output. -/
def Obligations.ResetInAnyStateLeavesNothing : Prop :=
  ∀ (s : State) (rest : List HostCall), s.host = .reset :: rest →
    ∃ t, step s = .next t ∧ t.pt = [] ∧ t.cur = 0 ∧ t.qstep = 0 ∧ t.mstate = .idle ∧
      t.acause = .none ∧ t.acause.code = 0 ∧ t.aval = 0#32 ∧ t.out = [] ∧ t.halted = [] ∧
      t.cfg = s.cfg ∧ t.host = rest

/-- The table keeps its order: a step that is not a host call leaves the table's processes in place, or
removes the one at the cursor; it never moves one or adds one (R21, R144). -/
def Obligations.TheTableIsNeverReordered : Prop :=
  ∀ s t : State, s.dueCall = none → step s = .next t →
    t.pt.map Process.loadIndex = s.pt.map Process.loadIndex ∨
    t.pt.map Process.loadIndex = (s.pt.map Process.loadIndex).eraseIdx s.cur

/-- OUT is append-only: no step takes an event away, unless the host resets the machine (R26). -/
def Obligations.OutputIsAppendOnly : Prop :=
  ∀ s t : State, (∀ rest, s.host ≠ .reset :: rest) → step s = .next t →
    ∃ es, t.out = s.out ++ es

/-- The quantum bounds the batch: with no host call to come, a running machine has left RUN after at most
as many steps as are left in the quantum and one more (R146). -/
def Obligations.TheQuantumBoundsTheBatch : Prop :=
  ∀ s : State, s.Inv → s.mstate = .run → s.host = [] →
    ∃ k t, k ≤ s.cfg.quantum - s.qstep + 1 ∧ Sys2Proof.core.run k s = .next t ∧ t.mstate ≠ .run

/-- QUANTUM does not affect what is executed: an executor step taken under one QUANTUM is taken alike under
another (R146, R153). -/
def Obligations.TheQuantumDoesNotAffectExecution : Prop :=
  ∀ (s t : State) (n : Nat), s.Ready → s.qstep ≠ n → step s = .next t →
    step (s.withQuantum n) = .next (t.withQuantum n)

/-- Round-robin fairness (the property the source states, which R152 derives from R143 and R145): with N
processes in the table, none of which halts or raises in its next step, and N steps left in the quantum,
then for every j up to N: after j steps the cursor has moved on by j modulo N, the j processes from the
starting index on have each executed exactly one instruction, and the others none. After N steps the
cursor is back where it was. -/
def Obligations.RoundRobinFairness : Prop :=
  ∀ (s : State) (n : Nat), s.mstate = .run → s.host = [] → s.pt.length = n → s.cur < n →
    s.qstep + n ≤ s.cfg.quantum →
    (∀ k p, s.pt[k]? = some p →
      ∃ i rest u q, decode p.fetchWords = .instr i rest ∧ exec i { s with cur := k } = .next u ∧
        u.mstate = .run ∧ u.current = some q ∧ q.live = true) →
    ∀ j, j ≤ n →
      ∃ t, Sys2Proof.core.run j s = .next t ∧ t.mstate = .run ∧ t.pt.length = n ∧
        t.qstep = s.qstep + j ∧ t.cur = (s.cur + j) % n ∧
        (∀ m, m < j → ∀ p i rest u, s.pt[(s.cur + m) % n]? = some p →
          decode p.fetchWords = .instr i rest →
          exec i { s with cur := (s.cur + m) % n } = .next u →
          t.pt[(s.cur + m) % n]? = u.pt[(s.cur + m) % n]?) ∧
        (∀ m, j ≤ m → m < n → t.pt[(s.cur + m) % n]? = s.pt[(s.cur + m) % n]?) ∧
        (j = n → t.cur = s.cur)

/-! ### Invariants -/

/-- Every step keeps the invariant of the machine, from every state that has it. -/
def Obligations.EveryStepKeepsTheInvariant : Prop :=
  ∀ s t : State, s.Inv → step s = .next t → t.Inv

/-- The invariant holds after reset. -/
def Obligations.ResetHasTheInvariant : Prop := State.reset.Inv

/-- From a state with the invariant, the machine never stops on a fault or a refusal of the model: every
step answers a next state. -/
def Obligations.EveryStepOfASoundStateAnswersNext : Prop :=
  ∀ s : State, s.Inv → ∃ t, step s = .next t
end

