-- ==== Sys2Proof/Laws/State.lean ====
section
/-! SUPPORT. One lemma per field per update of a record, each true by `rfl`, so that no later proof
unfolds an update. -/

namespace Sys2Proof.Machine

/-! ### Process -/

@[simp] theorem Process.setReg_regs (p : Process) (r : Reg) (v : Word) :
    (p.setReg r v).regs = p.regs.set r v := rfl
@[simp] theorem Process.setReg_flags (p : Process) (r : Reg) (v : Word) :
    (p.setReg r v).flags = p.flags := rfl
@[simp] theorem Process.setReg_heap (p : Process) (r : Reg) (v : Word) :
    (p.setReg r v).heap = p.heap := rfl
@[simp] theorem Process.setReg_heapSize (p : Process) (r : Reg) (v : Word) :
    (p.setReg r v).heapSize = p.heapSize := rfl
@[simp] theorem Process.setReg_stream (p : Process) (r : Reg) (v : Word) :
    (p.setReg r v).stream = p.stream := rfl
@[simp] theorem Process.setReg_pc (p : Process) (r : Reg) (v : Word) :
    (p.setReg r v).pc = p.pc := rfl
@[simp] theorem Process.setReg_uid (p : Process) (r : Reg) (v : Word) :
    (p.setReg r v).uid = p.uid := rfl
@[simp] theorem Process.setReg_loadIndex (p : Process) (r : Reg) (v : Word) :
    (p.setReg r v).loadIndex = p.loadIndex := rfl

@[simp] theorem Process.setFlags_regs (p : Process) (f : Flags) :
    (p.setFlags f).regs = p.regs := rfl
@[simp] theorem Process.setFlags_flags (p : Process) (f : Flags) :
    (p.setFlags f).flags = f := rfl
@[simp] theorem Process.setFlags_heap (p : Process) (f : Flags) :
    (p.setFlags f).heap = p.heap := rfl
@[simp] theorem Process.setFlags_heapSize (p : Process) (f : Flags) :
    (p.setFlags f).heapSize = p.heapSize := rfl
@[simp] theorem Process.setFlags_stream (p : Process) (f : Flags) :
    (p.setFlags f).stream = p.stream := rfl
@[simp] theorem Process.setFlags_pc (p : Process) (f : Flags) :
    (p.setFlags f).pc = p.pc := rfl
@[simp] theorem Process.setFlags_uid (p : Process) (f : Flags) :
    (p.setFlags f).uid = p.uid := rfl
@[simp] theorem Process.setFlags_loadIndex (p : Process) (f : Flags) :
    (p.setFlags f).loadIndex = p.loadIndex := rfl

@[simp] theorem Process.jumpTo_regs (p : Process) (t : Word) :
    (p.jumpTo t).regs = p.regs := rfl
@[simp] theorem Process.jumpTo_flags (p : Process) (t : Word) :
    (p.jumpTo t).flags = p.flags := rfl
@[simp] theorem Process.jumpTo_heap (p : Process) (t : Word) :
    (p.jumpTo t).heap = p.heap := rfl
@[simp] theorem Process.jumpTo_heapSize (p : Process) (t : Word) :
    (p.jumpTo t).heapSize = p.heapSize := rfl
@[simp] theorem Process.jumpTo_stream (p : Process) (t : Word) :
    (p.jumpTo t).stream = p.stream := rfl
@[simp] theorem Process.jumpTo_pc (p : Process) (t : Word) :
    (p.jumpTo t).pc = t := rfl
@[simp] theorem Process.jumpTo_uid (p : Process) (t : Word) :
    (p.jumpTo t).uid = p.uid := rfl
@[simp] theorem Process.jumpTo_loadIndex (p : Process) (t : Word) :
    (p.jumpTo t).loadIndex = p.loadIndex := rfl

@[simp] theorem Process.advance_regs (p : Process) (n : Nat) :
    (p.advance n).regs = p.regs := rfl
@[simp] theorem Process.advance_flags (p : Process) (n : Nat) :
    (p.advance n).flags = p.flags := rfl
@[simp] theorem Process.advance_heap (p : Process) (n : Nat) :
    (p.advance n).heap = p.heap := rfl
@[simp] theorem Process.advance_heapSize (p : Process) (n : Nat) :
    (p.advance n).heapSize = p.heapSize := rfl
@[simp] theorem Process.advance_stream (p : Process) (n : Nat) :
    (p.advance n).stream = p.stream := rfl
@[simp] theorem Process.advance_pc (p : Process) (n : Nat) :
    (p.advance n).pc = p.pc + BitVec.ofNat 32 (1 + n) := rfl
@[simp] theorem Process.advance_uid (p : Process) (n : Nat) :
    (p.advance n).uid = p.uid := rfl
@[simp] theorem Process.advance_loadIndex (p : Process) (n : Nat) :
    (p.advance n).loadIndex = p.loadIndex := rfl

/-! ### State -/

@[simp] theorem State.setCurrent_cfg (s : State) (q : Process) :
    (s.setCurrent q).cfg = s.cfg := rfl
@[simp] theorem State.setCurrent_pt (s : State) (q : Process) :
    (s.setCurrent q).pt = s.pt.set s.cur q := rfl
@[simp] theorem State.setCurrent_cur (s : State) (q : Process) :
    (s.setCurrent q).cur = s.cur := rfl
@[simp] theorem State.setCurrent_qstep (s : State) (q : Process) :
    (s.setCurrent q).qstep = s.qstep := rfl
@[simp] theorem State.setCurrent_mstate (s : State) (q : Process) :
    (s.setCurrent q).mstate = s.mstate := rfl
@[simp] theorem State.setCurrent_acause (s : State) (q : Process) :
    (s.setCurrent q).acause = s.acause := rfl
@[simp] theorem State.setCurrent_aval (s : State) (q : Process) :
    (s.setCurrent q).aval = s.aval := rfl
@[simp] theorem State.setCurrent_out (s : State) (q : Process) :
    (s.setCurrent q).out = s.out := rfl
@[simp] theorem State.setCurrent_halted (s : State) (q : Process) :
    (s.setCurrent q).halted = s.halted := rfl
@[simp] theorem State.setCurrent_host (s : State) (q : Process) :
    (s.setCurrent q).host = s.host := rfl

@[simp] theorem State.console_cfg (s : State) (es : List Event) :
    (s.console es).cfg = s.cfg := rfl
@[simp] theorem State.console_pt (s : State) (es : List Event) :
    (s.console es).pt = s.pt := rfl
@[simp] theorem State.console_cur (s : State) (es : List Event) :
    (s.console es).cur = s.cur := rfl
@[simp] theorem State.console_qstep (s : State) (es : List Event) :
    (s.console es).qstep = s.qstep := rfl
@[simp] theorem State.console_mstate (s : State) (es : List Event) :
    (s.console es).mstate = s.mstate := rfl
@[simp] theorem State.console_acause (s : State) (es : List Event) :
    (s.console es).acause = s.acause := rfl
@[simp] theorem State.console_aval (s : State) (es : List Event) :
    (s.console es).aval = s.aval := rfl
@[simp] theorem State.console_out (s : State) (es : List Event) :
    (s.console es).out = s.out ++ es := rfl
@[simp] theorem State.console_halted (s : State) (es : List Event) :
    (s.console es).halted = s.halted := rfl
@[simp] theorem State.console_host (s : State) (es : List Event) :
    (s.console es).host = s.host := rfl

@[simp] theorem State.raise_cfg (s : State) (r : Raise) :
    (s.raise r).cfg = s.cfg := rfl
@[simp] theorem State.raise_pt (s : State) (r : Raise) :
    (s.raise r).pt = s.pt := rfl
@[simp] theorem State.raise_cur (s : State) (r : Raise) :
    (s.raise r).cur = s.cur := rfl
@[simp] theorem State.raise_qstep (s : State) (r : Raise) :
    (s.raise r).qstep = s.qstep := rfl
@[simp] theorem State.raise_mstate (s : State) (r : Raise) :
    (s.raise r).mstate = .aborted := rfl
@[simp] theorem State.raise_acause (s : State) (r : Raise) :
    (s.raise r).acause = r.cause := rfl
@[simp] theorem State.raise_aval (s : State) (r : Raise) :
    (s.raise r).aval = r.info := rfl
@[simp] theorem State.raise_out (s : State) (r : Raise) :
    (s.raise r).out = s.out := rfl
@[simp] theorem State.raise_halted (s : State) (r : Raise) :
    (s.raise r).halted = s.halted := rfl
@[simp] theorem State.raise_host (s : State) (r : Raise) :
    (s.raise r).host = s.host := rfl

@[simp] theorem State.advanceCursor_cfg (s : State) :
    (s.advanceCursor).cfg = s.cfg := rfl
@[simp] theorem State.advanceCursor_pt (s : State) :
    (s.advanceCursor).pt = s.pt := rfl
@[simp] theorem State.advanceCursor_cur (s : State) :
    (s.advanceCursor).cur = (s.cur + 1) % s.pt.length := rfl
@[simp] theorem State.advanceCursor_qstep (s : State) :
    (s.advanceCursor).qstep = s.qstep := rfl
@[simp] theorem State.advanceCursor_mstate (s : State) :
    (s.advanceCursor).mstate = s.mstate := rfl
@[simp] theorem State.advanceCursor_acause (s : State) :
    (s.advanceCursor).acause = s.acause := rfl
@[simp] theorem State.advanceCursor_aval (s : State) :
    (s.advanceCursor).aval = s.aval := rfl
@[simp] theorem State.advanceCursor_out (s : State) :
    (s.advanceCursor).out = s.out := rfl
@[simp] theorem State.advanceCursor_halted (s : State) :
    (s.advanceCursor).halted = s.halted := rfl
@[simp] theorem State.advanceCursor_host (s : State) :
    (s.advanceCursor).host = s.host := rfl

@[simp] theorem State.removeCurrent_cfg (s : State) (p : Process) :
    (s.removeCurrent p).cfg = s.cfg := rfl
@[simp] theorem State.removeCurrent_pt (s : State) (p : Process) :
    (s.removeCurrent p).pt = s.pt.eraseIdx s.cur := rfl
@[simp] theorem State.removeCurrent_cur (s : State) (p : Process) :
    (s.removeCurrent p).cur = if s.cur ≥ (s.pt.eraseIdx s.cur).length then 0 else s.cur := rfl
@[simp] theorem State.removeCurrent_qstep (s : State) (p : Process) :
    (s.removeCurrent p).qstep = s.qstep := rfl
@[simp] theorem State.removeCurrent_mstate (s : State) (p : Process) :
    (s.removeCurrent p).mstate = s.mstate := rfl
@[simp] theorem State.removeCurrent_acause (s : State) (p : Process) :
    (s.removeCurrent p).acause = s.acause := rfl
@[simp] theorem State.removeCurrent_aval (s : State) (p : Process) :
    (s.removeCurrent p).aval = s.aval := rfl
@[simp] theorem State.removeCurrent_out (s : State) (p : Process) :
    (s.removeCurrent p).out = s.out := rfl
@[simp] theorem State.removeCurrent_halted (s : State) (p : Process) :
    (s.removeCurrent p).halted = s.halted ++ [p] := rfl
@[simp] theorem State.removeCurrent_host (s : State) (p : Process) :
    (s.removeCurrent p).host = s.host := rfl

@[simp] theorem State.hostStart_cfg (s : State) :
    (s.hostStart).cfg = s.cfg := rfl
@[simp] theorem State.hostStart_pt (s : State) :
    (s.hostStart).pt = s.pt := rfl
@[simp] theorem State.hostStart_cur (s : State) :
    (s.hostStart).cur = 0 := rfl
@[simp] theorem State.hostStart_qstep (s : State) :
    (s.hostStart).qstep = 0 := rfl
@[simp] theorem State.hostStart_mstate (s : State) :
    (s.hostStart).mstate = .run := rfl
@[simp] theorem State.hostStart_acause (s : State) :
    (s.hostStart).acause = s.acause := rfl
@[simp] theorem State.hostStart_aval (s : State) :
    (s.hostStart).aval = s.aval := rfl
@[simp] theorem State.hostStart_out (s : State) :
    (s.hostStart).out = s.out := rfl
@[simp] theorem State.hostStart_halted (s : State) :
    (s.hostStart).halted = s.halted := rfl
@[simp] theorem State.hostStart_host (s : State) :
    (s.hostStart).host = s.host := rfl

@[simp] theorem State.hostResume_cfg (s : State) :
    (s.hostResume).cfg = s.cfg := rfl
@[simp] theorem State.hostResume_pt (s : State) :
    (s.hostResume).pt = s.pt := rfl
@[simp] theorem State.hostResume_cur (s : State) :
    (s.hostResume).cur = s.cur := rfl
@[simp] theorem State.hostResume_qstep (s : State) :
    (s.hostResume).qstep = 0 := rfl
@[simp] theorem State.hostResume_mstate (s : State) :
    (s.hostResume).mstate = .run := rfl
@[simp] theorem State.hostResume_acause (s : State) :
    (s.hostResume).acause = s.acause := rfl
@[simp] theorem State.hostResume_aval (s : State) :
    (s.hostResume).aval = s.aval := rfl
@[simp] theorem State.hostResume_out (s : State) :
    (s.hostResume).out = s.out := rfl
@[simp] theorem State.hostResume_halted (s : State) :
    (s.hostResume).halted = s.halted := rfl
@[simp] theorem State.hostResume_host (s : State) :
    (s.hostResume).host = s.host := rfl

@[simp] theorem State.hostReset_cfg (s : State) :
    (s.hostReset).cfg = s.cfg := rfl
@[simp] theorem State.hostReset_pt (s : State) :
    (s.hostReset).pt = State.reset.pt := rfl
@[simp] theorem State.hostReset_cur (s : State) :
    (s.hostReset).cur = State.reset.cur := rfl
@[simp] theorem State.hostReset_qstep (s : State) :
    (s.hostReset).qstep = State.reset.qstep := rfl
@[simp] theorem State.hostReset_mstate (s : State) :
    (s.hostReset).mstate = State.reset.mstate := rfl
@[simp] theorem State.hostReset_acause (s : State) :
    (s.hostReset).acause = State.reset.acause := rfl
@[simp] theorem State.hostReset_aval (s : State) :
    (s.hostReset).aval = State.reset.aval := rfl
@[simp] theorem State.hostReset_out (s : State) :
    (s.hostReset).out = State.reset.out := rfl
@[simp] theorem State.hostReset_halted (s : State) :
    (s.hostReset).halted = State.reset.halted := rfl
@[simp] theorem State.hostReset_host (s : State) :
    (s.hostReset).host = s.host := rfl

end Sys2Proof.Machine
end

