-- ==== Sys2Proof/Laws/Ops.lean ====
section
/-! SUPPORT. What the shared operations over registers, memory and the machine do, said once each. -/

namespace Sys2Proof.Machine

/-! ### Registers -/

@[simp] theorem RegFile.get_set_self (f : RegFile) (r : Reg) (v : Word) : (f.set r v).get r = v := by
  cases r <;> rfl

theorem RegFile.get_set_ne (f : RegFile) {r r' : Reg} (v : Word) (h : r' ≠ r) :
    (f.set r v).get r' = f.get r' := by
  cases r <;> cases r' <;> first | rfl | exact absurd rfl h

theorem RegFile.get_set (f : RegFile) (r r' : Reg) (v : Word) :
    (f.set r v).get r' = if r' = r then v else f.get r' := by
  split
  · next h => rw [h, RegFile.get_set_self]
  · next h => exact f.get_set_ne v h

@[simp] theorem RegFile.set_get_self (f : RegFile) (r : Reg) : f.set r (f.get r) = f := by
  cases r <;> rfl

@[simp] theorem RegFile.get_all (v : Word) (r : Reg) : (RegFile.all v).get r = v := by
  cases r <;> rfl

/-- Two register files that read alike are equal. -/
theorem RegFile.ext_get {f g : RegFile} (h : ∀ r, f.get r = g.get r) : f = g := by
  have h0 := h .r0
  have h1 := h .r1
  have h2 := h .r2
  have h3 := h .r3
  have h4 := h .r4
  have h5 := h .r5
  cases f
  cases g
  simp only [RegFile.get] at h0 h1 h2 h3 h4 h5
  subst h0 h1 h2 h3 h4 h5
  rfl

@[simp] theorem Process.reg_setReg_self (p : Process) (r : Reg) (v : Word) :
    (p.setReg r v).reg r = v := p.regs.get_set_self r v

theorem Process.reg_setReg_ne (p : Process) {r r' : Reg} (v : Word) (h : r' ≠ r) :
    (p.setReg r v).reg r' = p.reg r' := p.regs.get_set_ne v h

@[simp] theorem Process.reg_setFlags (p : Process) (f : Flags) (r : Reg) :
    (p.setFlags f).reg r = p.reg r := rfl

@[simp] theorem Process.reg_advance (p : Process) (n : Nat) (r : Reg) :
    (p.advance n).reg r = p.reg r := rfl

@[simp] theorem Process.reg_jumpTo (p : Process) (t : Word) (r : Reg) :
    (p.jumpTo t).reg r = p.reg r := rfl

/-! ### Register operand words -/

@[simp] theorem Reg.ofWord?_word (r : Reg) : Reg.ofWord? r.word = some r := by
  cases r <;> rfl

theorem Reg.word_inj {r r' : Reg} (h : r.word = r'.word) : r = r' := by
  have := congrArg Reg.ofWord? h
  simpa using this

theorem Reg.word_toNat_lt (r : Reg) : r.word.toNat < 6 := by
  cases r <;> decide

theorem Reg.ofWord?_eq_some {w : Word} {r : Reg} : Reg.ofWord? w = some r ↔ w = r.word := by
  constructor
  · intro h
    apply BitVec.eq_of_toNat_eq
    unfold Reg.ofWord? at h
    split at h <;> cases h <;> assumption
  · rintro rfl
    exact Reg.ofWord?_word r

theorem Reg.ofWord?_eq_none {w : Word} : Reg.ofWord? w = none ↔ 6 ≤ w.toNat := by
  unfold Reg.ofWord?
  split
  all_goals simp_all
  omega

/-- An operand word names a register or is 6 or more: no third case. -/
theorem Reg.word_cases (w : Word) : (∃ r : Reg, w = r.word) ∨ 6 ≤ w.toNat := by
  cases h : Reg.ofWord? w with
  | some r => exact .inl ⟨r, Reg.ofWord?_eq_some.mp h⟩
  | none => exact .inr (Reg.ofWord?_eq_none.mp h)

@[simp] theorem regOperand_word (r : Reg) : regOperand r.word = .ok r := by
  simp [regOperand]

theorem regOperand_bad {w : Word} (h : 6 ≤ w.toNat) :
    regOperand w = .error ⟨.badRegister, w⟩ := by
  simp [regOperand, Reg.ofWord?_eq_none.mpr h]

theorem regOperand_eq_ok {w : Word} {r : Reg} : regOperand w = .ok r ↔ w = r.word := by
  rw [← Reg.ofWord?_eq_some]
  unfold regOperand
  cases Reg.ofWord? w <;> simp

theorem regOperand_eq_error {w : Word} {e : Raise} :
    regOperand w = .error e ↔ 6 ≤ w.toNat ∧ e = ⟨.badRegister, w⟩ := by
  rw [← Reg.ofWord?_eq_none]
  unfold regOperand
  cases Reg.ofWord? w <;> simp [eq_comm]

/-! ### Memory -/

@[simp] theorem Memory.read_nil (a : Nat) : Memory.read [] a = Memory.unlisted := rfl

theorem Memory.read_of_lt_all {m : Memory} {a : Nat} (h : ∀ c ∈ m, a < c.1) :
    m.read a = Memory.unlisted := by
  induction m with
  | nil => rfl
  | cons c rest ih =>
    obtain ⟨b, w⟩ := c
    have hb : a < b := h (b, w) (by simp)
    simp only [Memory.read]
    rw [if_neg (by omega)]
    exact ih (fun c hc => h c (by simp [hc]))

theorem Memory.wf_cons {a : Nat} {v : Word} {rest : Memory} :
    Memory.wf ((a, v) :: rest) = true ↔
      v ≠ Memory.unlisted ∧ (∀ c ∈ rest, a < c.1) ∧ rest.wf = true := by
  simp [Memory.wf, and_assoc]

/-- A write leaves every other index alone, whatever the list. -/
theorem Memory.read_write_ne (m : Memory) {a b : Nat} (v : Word) (h : b ≠ a) :
    (m.write a v).read b = m.read b := by
  induction m with
  | nil => by_cases hv : v = Memory.unlisted <;> simp [Memory.write, Memory.read, hv, h]
  | cons c rest ih =>
    obtain ⟨k, w⟩ := c
    simp only [Memory.write]
    split
    · split
      · rfl
      · simp [Memory.read, h]
    · split
      · next hk =>
        subst hk
        split <;> simp [Memory.read, h]
      · simp only [Memory.read, ih]

/-- A read after a write to the same index gives the word written, in a canonical memory. -/
theorem Memory.read_write_self {m : Memory} (hm : m.wf = true) (a : Nat) (v : Word) :
    (m.write a v).read a = v := by
  induction m with
  | nil => by_cases hv : v = Memory.unlisted <;> simp [Memory.write, Memory.read, hv]
  | cons c rest ih =>
    obtain ⟨k, w⟩ := c
    obtain ⟨hw, hlt, hrest⟩ := Memory.wf_cons.mp hm
    simp only [Memory.write]
    split
    · next hak =>
      split
      · next hv =>
        rw [hv]
        refine Memory.read_of_lt_all (fun c hc => ?_)
        rcases List.mem_cons.mp hc with rfl | hc
        · exact hak
        · exact Nat.lt_trans hak (hlt c hc)
      · simp [Memory.read]
    · split
      · next hak =>
        subst hak
        split
        · next hv =>
          rw [hv]
          exact Memory.read_of_lt_all hlt
        · simp [Memory.read]
      · next hne =>
        simp only [Memory.read, if_neg hne]
        exact ih hrest

/-- The entries of a memory after a write are old entries or the one written. -/
theorem Memory.mem_write {m : Memory} {a : Nat} {v : Word} {c : Nat × Word}
    (h : c ∈ m.write a v) : c = (a, v) ∨ c ∈ m := by
  induction m with
  | nil =>
    simp only [Memory.write] at h
    split at h <;> simp_all
  | cons d rest ih =>
    obtain ⟨k, w⟩ := d
    simp only [Memory.write] at h
    split at h
    · split at h
      · exact .inr h
      · exact List.mem_cons.mp h
    · split at h
      · split at h
        · exact .inr (by simp [h])
        · rcases List.mem_cons.mp h with h | h
          · exact .inl h
          · exact .inr (by simp [h])
      · rcases List.mem_cons.mp h with h | h
        · exact .inr (by simp [h])
        · rcases ih h with h | h
          · exact .inl h
          · exact .inr (by simp [h])

/-- A write keeps the canonical form. -/
theorem Memory.wf_write {m : Memory} (hm : m.wf = true) (a : Nat) (v : Word) :
    (m.write a v).wf = true := by
  induction m with
  | nil => by_cases hv : v = Memory.unlisted <;> simp [Memory.write, Memory.wf, hv]
  | cons c rest ih =>
    obtain ⟨k, w⟩ := c
    obtain ⟨hw, hlt, hrest⟩ := Memory.wf_cons.mp hm
    simp only [Memory.write]
    split
    · next hak =>
      split
      · exact hm
      · next hv =>
        refine Memory.wf_cons.mpr ⟨hv, fun c hc => ?_, hm⟩
        rcases List.mem_cons.mp hc with rfl | hc
        · exact hak
        · exact Nat.lt_trans hak (hlt c hc)
    · split
      · next hak =>
        split
        · exact hrest
        · next hv => exact Memory.wf_cons.mpr ⟨hv, by rw [hak]; exact hlt, hrest⟩
      · next hlt' hne =>
        refine Memory.wf_cons.mpr ⟨hw, fun c hc => ?_, ih hrest⟩
        rcases Memory.mem_write hc with rfl | hc
        · show k < a
          omega
        · exact hlt c hc

/-- A heap nothing has written is canonical. -/
theorem Memory.wf_nil : Memory.wf [] = true := rfl

/-- Everything `memRead` can do. -/
theorem Process.memRead_spec (p : Process) (a : Word) :
    (a.toNat < p.heapSize ∧ p.memRead a = .ok (p.heapWord a.toNat)) ∨
      (p.heapSize ≤ a.toNat ∧ p.memRead a = .error ⟨.heapBounds, a⟩) := by
  unfold Process.memRead
  split
  · next h => exact .inl ⟨h, rfl⟩
  · next h => exact .inr ⟨Nat.le_of_not_lt h, rfl⟩

/-- Everything `memWrite` can do. -/
theorem Process.memWrite_spec (p : Process) (a v : Word) :
    (a.toNat < p.heapSize ∧ p.memWrite a v = .ok { p with heap := p.heap.write a.toNat v }) ∨
      (p.heapSize ≤ a.toNat ∧ p.memWrite a v = .error ⟨.heapBounds, a⟩) := by
  unfold Process.memWrite
  split
  · next h => exact .inl ⟨h, rfl⟩
  · next h => exact .inr ⟨Nat.le_of_not_lt h, rfl⟩

theorem Process.memRead_ok {p : Process} {a : Word} (h : a.toNat < p.heapSize) :
    p.memRead a = .ok (p.heapWord a.toNat) := if_pos h

theorem Process.memRead_bad {p : Process} {a : Word} (h : p.heapSize ≤ a.toNat) :
    p.memRead a = .error ⟨.heapBounds, a⟩ := if_neg (Nat.not_lt.mpr h)

theorem Process.memWrite_ok {p : Process} {a : Word} (v : Word) (h : a.toNat < p.heapSize) :
    p.memWrite a v = .ok { p with heap := p.heap.write a.toNat v } := if_pos h

theorem Process.memWrite_bad {p : Process} {a : Word} (v : Word) (h : p.heapSize ≤ a.toNat) :
    p.memWrite a v = .error ⟨.heapBounds, a⟩ := if_neg (Nat.not_lt.mpr h)

/-! ### The process at the cursor -/

theorem State.cur_lt_of_current {s : State} {p : Process} (h : s.current = some p) :
    s.cur < s.pt.length := (List.getElem?_eq_some_iff.mp h).1

@[simp] theorem State.current_console (s : State) (es : List Event) :
    (s.console es).current = s.current := rfl

@[simp] theorem State.current_raise (s : State) (r : Raise) : (s.raise r).current = s.current := rfl

@[simp] theorem State.console_nil (s : State) : s.console [] = s := by
  simp [State.console]

theorem State.current_setCurrent {s : State} {p : Process} (h : s.current = some p) (q : Process) :
    (s.setCurrent q).current = some q := by
  simp [State.current, State.setCurrent, State.cur_lt_of_current h]

/-! ### Performing a rule -/

theorem State.perform_ok {s : State} {p q : Process} {f : Process → Except Raise Process}
    (h : s.current = some p) (hf : f p = .ok q) : s.perform f = .next (s.setCurrent q) := by
  simp [State.perform, h, hf]

theorem State.perform_error {s : State} {p : Process} {r : Raise}
    {f : Process → Except Raise Process} (h : s.current = some p) (hf : f p = .error r) :
    s.perform f = .next (s.raise r) := by
  simp [State.perform, h, hf]

/-- Everything `perform` can do when it answers a next state. -/
theorem State.perform_next {s t : State} {f : Process → Except Raise Process}
    (h : s.perform f = .next t) :
    ∃ p, s.current = some p ∧
      ((∃ q, f p = .ok q ∧ t = s.setCurrent q) ∨ (∃ r, f p = .error r ∧ t = s.raise r)) := by
  unfold State.perform at h
  split at h
  · cases h
  · next p hp =>
    refine ⟨p, hp, ?_⟩
    split at h
    · next q hq => exact .inl ⟨q, hq, by cases h; rfl⟩
    · next r hr => exact .inr ⟨r, hr, by cases h; rfl⟩

theorem State.performEmitting_ok {s : State} {p q : Process} {es : List Event}
    {f : Process → Except Raise (Process × List Event)}
    (h : s.current = some p) (hf : f p = .ok (q, es)) :
    s.performEmitting f = .next ((s.setCurrent q).console es) := by
  simp [State.performEmitting, h, hf]

theorem State.performEmitting_error {s : State} {p : Process} {r : Raise}
    {f : Process → Except Raise (Process × List Event)}
    (h : s.current = some p) (hf : f p = .error r) : s.performEmitting f = .next (s.raise r) := by
  simp [State.performEmitting, h, hf]

/-- Everything `performEmitting` can do when it answers a next state. -/
theorem State.performEmitting_next {s t : State} {f : Process → Except Raise (Process × List Event)}
    (h : s.performEmitting f = .next t) :
    ∃ p, s.current = some p ∧
      ((∃ q es, f p = .ok (q, es) ∧ t = (s.setCurrent q).console es) ∨
        (∃ r, f p = .error r ∧ t = s.raise r)) := by
  unfold State.performEmitting at h
  split at h
  · cases h
  · next p hp =>
    refine ⟨p, hp, ?_⟩
    split at h
    · next q es hq => exact .inl ⟨q, es, hq, by cases h; rfl⟩
    · next r hr => exact .inr ⟨r, hr, by cases h; rfl⟩

end Sys2Proof.Machine
end

