-- ==== Sys2Proof/Laws/Operands.lean ====
section
/-! SUPPORT. What the operand forms and the three operations over them do, said once each: for every
operation its result when the operands are good, its raise when one is bad, and the list of everything it
can do when it answers. -/

namespace Sys2Proof.Machine

@[simp] theorem except_pure {ε α : Type} (a : α) : (pure a : Except ε α) = .ok a := rfl

@[simp] theorem except_bind_ok {ε α β : Type} (a : α) (f : α → Except ε β) :
    ((Except.ok a : Except ε α) >>= f) = f a := rfl

@[simp] theorem except_bind_error {ε α β : Type} (e : ε) (f : α → Except ε β) :
    ((Except.error e : Except ε α) >>= f) = .error e := rfl

/-- A sequence answers exactly when both parts do. -/
theorem except_bind_eq_ok {ε α β : Type} {x : Except ε α} {f : α → Except ε β} {b : β} :
    (x >>= f) = .ok b ↔ ∃ a, x = .ok a ∧ f a = .ok b := by
  cases x <;> simp

/-- A sequence raises exactly when its first part does, or the first part answers and the second
raises. -/
theorem except_bind_eq_error {ε α β : Type} {x : Except ε α} {f : α → Except ε β} {e : ε} :
    (x >>= f) = .error e ↔ x = .error e ∨ ∃ a, x = .ok a ∧ f a = .error e := by
  cases x <;> simp

/-! ### Operand forms (R93) -/

@[simp] theorem Process.place_reg (p : Process) (r : Reg) :
    p.place (.reg r.word) = .ok (.reg r) := by simp [Process.place]

@[simp] theorem Process.place_mem (p : Process) (a : Addr) : p.place (.mem a) = .ok (.cell a) := rfl

@[simp] theorem Process.place_memAt (p : Process) (r : Reg) :
    p.place (.memAt r.word) = .ok (.cell (p.reg r)) := by simp [Process.place]

theorem Process.place_reg_bad (p : Process) {w : RegWord} (h : 6 ≤ w.toNat) :
    p.place (.reg w) = .error ⟨.badRegister, w⟩ := by simp [Process.place, regOperand_bad h]

theorem Process.place_memAt_bad (p : Process) {w : RegWord} (h : 6 ≤ w.toNat) :
    p.place (.memAt w) = .error ⟨.badRegister, w⟩ := by simp [Process.place, regOperand_bad h]

@[simp] theorem Process.datum_value (p : Process) (v : Value) :
    p.datum (.value v) = .ok (.value v) := rfl

theorem Process.datum_loc (p : Process) (l : Loc) :
    p.datum (.loc l) = (p.place l >>= fun pl => .ok (.place pl)) := rfl

@[simp] theorem Process.getPlace_reg (p : Process) (r : Reg) :
    p.getPlace (.reg r) = .ok (p.reg r) := rfl

@[simp] theorem Process.getPlace_cell (p : Process) (a : Word) :
    p.getPlace (.cell a) = p.memRead a := rfl

@[simp] theorem Process.getDatum_value (p : Process) (v : Word) :
    p.getDatum (.value v) = .ok v := rfl

@[simp] theorem Process.getDatum_place (p : Process) (pl : Place) :
    p.getDatum (.place pl) = p.getPlace pl := rfl

@[simp] theorem Process.putPlace_reg (p : Process) (r : Reg) (v : Word) :
    p.putPlace (.reg r) v = .ok (p.setReg r v) := rfl

@[simp] theorem Process.putPlace_cell (p : Process) (a v : Word) :
    p.putPlace (.cell a) v = p.memWrite a v := rfl

/-- Everything writing a place can do when it answers. -/
theorem Process.putPlace_ok {p q : Process} {pl : Place} {v : Word}
    (h : p.putPlace pl v = .ok q) :
    (∃ r, pl = .reg r ∧ q = p.setReg r v) ∨
      (∃ a, pl = .cell a ∧ a.toNat < p.heapSize ∧
        q = { p with heap := p.heap.write a.toNat v }) := by
  cases pl with
  | reg r => exact .inl ⟨r, rfl, by simpa using h.symm⟩
  | cell a =>
    rcases p.memWrite_spec a v with ⟨ha, hw⟩ | ⟨ha, hw⟩
    · rw [Process.putPlace_cell, hw] at h
      exact .inr ⟨a, rfl, ha, by simpa using h.symm⟩
    · rw [Process.putPlace_cell, hw] at h
      cases h

/-- Writing a place leaves everything of the process but its registers and its heap. -/
theorem Process.putPlace_keeps {p q : Process} {pl : Place} {v : Word}
    (h : p.putPlace pl v = .ok q) :
    q.flags = p.flags ∧ q.pc = p.pc ∧ q.stream = p.stream ∧ q.heapSize = p.heapSize ∧
      q.uid = p.uid ∧ q.loadIndex = p.loadIndex := by
  rcases Process.putPlace_ok h with ⟨r, rfl, rfl⟩ | ⟨a, rfl, ha, rfl⟩ <;> simp

/-- The places a location names. -/
theorem Process.place_ok {p : Process} {l : Loc} {pl : Place} (h : p.place l = .ok pl) :
    (∃ r : Reg, l = .reg r.word ∧ pl = .reg r) ∨ (∃ a, l = .mem a ∧ pl = .cell a) ∨
      (∃ r : Reg, l = .memAt r.word ∧ pl = .cell (p.reg r)) := by
  cases l with
  | reg w =>
    rcases Reg.word_cases w with ⟨r, rfl⟩ | hw
    · exact .inl ⟨r, rfl, by simpa using h.symm⟩
    · rw [p.place_reg_bad hw] at h
      cases h
  | mem a => exact .inr (.inl ⟨a, rfl, by simpa using h.symm⟩)
  | memAt w =>
    rcases Reg.word_cases w with ⟨r, rfl⟩ | hw
    · exact .inr (.inr ⟨r, rfl, by simpa using h.symm⟩)
    · rw [p.place_memAt_bad hw] at h
      cases h

/-! ### The shared operations -/

/-- Everything `copyWord` can do when it answers: one place is written, and pc advances. -/
theorem Process.copyWord_ok {dst : Loc} {src : Source} {p q : Process}
    (h : Process.copyWord dst src p = .ok q) :
    ∃ pl v q', p.place dst = .ok pl ∧ p.putPlace pl v = .ok q' ∧ q = q'.advance 2 := by
  simp only [Process.copyWord, except_bind_eq_ok, except_pure] at h
  obtain ⟨pl, hpl, x, -, v, -, q', hq', hq⟩ := h
  exact ⟨pl, v, q', hpl, hq', by simpa using hq.symm⟩

/-- Everything `combine` can do when it answers: one register and the flags are written, and pc
advances. -/
theorem Process.combine_ok {w : RegWord} {src : Source} {f : Word → Word → Word}
    {g : Flags → Word → Word → Flags} {p q : Process} (h : Process.combine w src f g p = .ok q) :
    ∃ (r : Reg) (b : Word), w = r.word ∧
      q = ((p.setReg r (f (p.reg r) b)).setFlags (g p.flags (p.reg r) b)).advance 2 := by
  simp only [Process.combine, except_bind_eq_ok, except_pure] at h
  obtain ⟨r, hr, x, -, b, -, hq⟩ := h
  exact ⟨r, b, regOperand_eq_ok.mp hr, by simpa using hq.symm⟩

/-- Everything `compareWith` can do when it answers: the flags are written, and pc advances. -/
theorem Process.compareWith_ok {w : RegWord} {src : Source} {p q : Process}
    (h : Process.compareWith w src p = .ok q) :
    ∃ (r : Reg) (b : Word), w = r.word ∧
      q = (p.setFlags (p.flags.compare (p.reg r) b)).advance 2 := by
  simp only [Process.compareWith, except_bind_eq_ok, except_pure] at h
  obtain ⟨r, hr, x, -, b, -, hq⟩ := h
  exact ⟨r, b, regOperand_eq_ok.mp hr, by simpa using hq.symm⟩

/-- Everything `modifyWord` can do when it answers: one place is written, and pc advances. -/
theorem Process.modifyWord_ok {l : Loc} {f : Word → Word} {p q : Process}
    (h : Process.modifyWord l f p = .ok q) :
    ∃ pl v q', p.place l = .ok pl ∧ p.getPlace pl = .ok v ∧ p.putPlace pl (f v) = .ok q' ∧
      q = q'.advance 1 := by
  simp only [Process.modifyWord, except_bind_eq_ok, except_pure] at h
  obtain ⟨pl, hpl, v, hv, q', hq', hq⟩ := h
  exact ⟨pl, v, q', hpl, hv, hq', by simpa using hq.symm⟩

/-- Everything `multiplyBy` can do when it answers: the pair is written, and pc advances. -/
theorem Process.multiplyBy_ok {k : Nat} {src : Source} {p q : Process}
    (h : Process.multiplyBy k src p = .ok q) :
    ∃ b, q = p.setPair (mulResult k (p.reg .r0) b) := by
  simp only [Process.multiplyBy, except_bind_eq_ok, except_pure] at h
  obtain ⟨x, -, b, -, hq⟩ := h
  exact ⟨b, by simpa using hq.symm⟩

/-- Everything `divideBy` can do when it answers: the divisor is not 0, the pair is written, and pc
advances. -/
theorem Process.divideBy_ok {k : Nat} {op : Word} {src : Source} {p q : Process}
    (h : Process.divideBy k op src p = .ok q) :
    ∃ v, v ≠ 0#32 ∧ q = p.setPair (divResult k (p.reg .r3) (p.reg .r0) v) := by
  simp only [Process.divideBy, except_bind_eq_ok] at h
  obtain ⟨x, -, v, -, hq⟩ := h
  split at hq
  · cases hq
  · next hv => exact ⟨v, hv, by simpa using hq.symm⟩

/-! ### Arithmetic on words -/

theorem trunc32_toNat (n : Nat) : (trunc32 n).toNat = n % 2 ^ 32 := by simp [trunc32]

theorem addWord_toNat (a b : Word) : (addWord a b).toNat = (a.toNat + b.toNat) % 2 ^ 32 :=
  trunc32_toNat _

theorem subWord_toNat (a b : Word) :
    ((subWord a b).toNat : Int) = (a.toNat - b.toNat : Int) % 2 ^ 32 := by
  have := a.isLt
  have := b.isLt
  simp only [subWord, trunc32_toNat]
  omega

end Sys2Proof.Machine
end

