-- ==== Sys2Proof/Laws/Exec.lean ====
section
/-! SUPPORT. Every meaning seen as one rule on a process: `ruleOf` gives the rule of each instruction,
and `exec` performs it on the process at the cursor. The provers cite `exec_eq_ruleOf` and
`exec_next` instead of unfolding the 31 meanings. -/

namespace Sys2Proof.Machine

/-- A rule that emits no console event. -/
def quiet (f : Process → Except Raise Process) (p : Process) : Except Raise (Process × List Event) :=
  match f p with
  | .ok q => .ok (q, [])
  | .error r => .error r

/-- The rule of each instruction, on one process. -/
def ruleOf (c : Config) : Instr → Process → Except Raise (Process × List Event)
  | .syscall => fun p => do
    let es ← p.dispatchCall
    return (p.advance 0, es)
  | .movValueToRegister reg value => quiet (Process.copyWord (.reg reg) (.value value))
  | .movRegisterToRegister dst src => quiet (Process.copyWord (.reg dst) (.loc (.reg src)))
  | .movMemoryToRegister reg addr => quiet (Process.copyWord (.reg reg) (.loc (.mem addr)))
  | .movValueToMemory addr value => quiet (Process.copyWord (.mem addr) (.value value))
  | .movRegisterToMemory addr reg => quiet (Process.copyWord (.mem addr) (.loc (.reg reg)))
  | .addValue reg value => quiet (Process.combine reg (.value value) addWord Flags.addCarry)
  | .addRegister dst src =>
    quiet (Process.combine dst (.loc (.reg src)) addWord (Flags.addRegisterCarry c.addRegWritesCarry))
  | .subValue reg value => quiet (Process.combine reg (.value value) subWord Flags.keep)
  | .subRegister dst src => quiet (Process.combine dst (.loc (.reg src)) subWord Flags.keep)
  | .mulValue value => quiet (Process.multiplyBy c.mulSplit (.value value))
  | .mulRegister reg => quiet (Process.multiplyBy c.mulSplit (.loc (.reg reg)))
  | .divValue value => quiet (Process.divideBy c.mulSplit 0xc#32 (.value value))
  | .divRegister reg => quiet (Process.divideBy c.mulSplit 0xd#32 (.loc (.reg reg)))
  | .movValueToMemAtRegister reg value => quiet (Process.copyWord (.memAt reg) (.value value))
  | .movRegisterToMemAtRegister reg srcReg =>
    quiet (Process.copyWord (.memAt reg) (.loc (.reg srcReg)))
  | .movMemToMem addr addr2 => quiet (Process.copyWord (.mem addr) (.loc (.mem addr2)))
  | .movMemToMemAtRegister reg addr2 => quiet (Process.copyWord (.memAt reg) (.loc (.mem addr2)))
  | .movMemAtRegisterToRegister reg addrReg =>
    quiet (Process.copyWord (.reg reg) (.loc (.memAt addrReg)))
  | .movMemAtRegisterToMem addr addrReg =>
    quiet (Process.copyWord (.mem addr) (.loc (.memAt addrReg)))
  | .movMemAtRegisterToMemAtRegister reg addrReg =>
    quiet (Process.copyWord (.memAt reg) (.loc (.memAt addrReg)))
  | .incrementRegister reg => quiet (Process.modifyWord (.reg reg) incWord)
  | .incrementMemory addr => quiet (Process.modifyWord (.mem addr) incWord)
  | .incrementMemoryAtRegister reg => quiet (Process.modifyWord (.memAt reg) incWord)
  | .decrementRegister reg => quiet (Process.modifyWord (.reg reg) decWord)
  | .decrementMemory addr => quiet (Process.modifyWord (.mem addr) decWord)
  | .decrementMemoryAtRegister reg => quiet (Process.modifyWord (.memAt reg) decWord)
  | .compareValue reg value => quiet (Process.compareWith reg (.value value))
  | .compareRegister reg reg2 => quiet (Process.compareWith reg (.loc (.reg reg2)))
  | .jump target => quiet fun p => return p.jumpTo target
  | .jumpIfEqual target =>
    quiet fun p => return (if p.flags.zero then p.jumpTo target else p.advance 1)

/-- A rule that emits nothing, performed either way. -/
theorem State.performEmitting_quiet (s : State) (f : Process → Except Raise Process) :
    s.performEmitting (quiet f) = s.perform f := by
  unfold State.performEmitting State.perform quiet
  cases s.current with
  | none => rfl
  | some p =>
    cases hf : f p <;> simp [hf]

/-- Everything `quiet` can do when it answers. -/
theorem quiet_ok {f : Process → Except Raise Process} {p q : Process} {es : List Event}
    (h : quiet f p = .ok (q, es)) : f p = .ok q ∧ es = [] := by
  unfold quiet at h
  split at h
  · next hq =>
    cases h
    exact ⟨hq, rfl⟩
  · cases h

/-- Everything `quiet` can do when it raises. -/
theorem quiet_error {f : Process → Except Raise Process} {p : Process} {r : Raise}
    (h : quiet f p = .error r) : f p = .error r := by
  unfold quiet at h
  split at h
  · cases h
  · next he =>
    cases h
    exact he

/-- Everything the syscall rule can do to its process: pc passes the opcode word. -/
theorem ruleOf_syscall_ok {c : Config} {p q : Process} {es : List Event}
    (h : ruleOf c .syscall p = .ok (q, es)) : q = p.advance 0 ∧ p.dispatchCall = .ok es := by
  simp only [ruleOf, except_bind_eq_ok, except_pure] at h
  obtain ⟨e, he, hq⟩ := h
  cases hq
  exact ⟨rfl, he⟩

/-- `exec` performs the instruction's rule on the process at the cursor. -/
theorem exec_eq_ruleOf (i : Instr) (s : State) :
    exec i s = s.performEmitting (ruleOf s.cfg i) := by
  cases i <;> simp only [ruleOf, State.performEmitting_quiet] <;> rfl

/-- With a process at the cursor, the rule's answer decides. -/
theorem exec_of_current {i : Instr} {s : State} {p : Process} (h : s.current = some p) :
    exec i s = match ruleOf s.cfg i p with
      | .ok (q, es) => .next ((s.setCurrent q).console es)
      | .error r => .next (s.raise r) := by
  rw [exec_eq_ruleOf]
  cases hr : ruleOf s.cfg i p with
  | ok x =>
    obtain ⟨q, es⟩ := x
    exact State.performEmitting_ok h hr
  | error r => exact State.performEmitting_error h hr

/-- Everything `exec` can do when it answers a next state: the rule has been performed on the process at
the cursor, or it has raised. -/
theorem exec_next {i : Instr} {s t : State} (h : exec i s = .next t) :
    ∃ p, s.current = some p ∧
      ((∃ q es, ruleOf s.cfg i p = .ok (q, es) ∧ t = (s.setCurrent q).console es) ∨
        (∃ r, ruleOf s.cfg i p = .error r ∧ t = s.raise r)) := by
  rw [exec_eq_ruleOf] at h
  exact State.performEmitting_next h

/-- No instruction is refused, and the only fault is that there is no process at the cursor. -/
theorem exec_total {i : Instr} {s : State} {p : Process} (h : s.current = some p) :
    ∃ t, exec i s = .next t := by
  rw [exec_of_current h]
  cases ruleOf s.cfg i p with
  | ok x => exact ⟨_, rfl⟩
  | error r => exact ⟨_, rfl⟩

end Sys2Proof.Machine
end

