-- ==== Sys2Proof/Laws/PerInstr.lean ====
section
/-! SUPPORT. Statements about the syntax of every instruction, one lemma per constructor.

`EncodeLength`: an instruction is its opcode word and as many operand words as `NOPS` of its opcode says
(R50, R53). -/

namespace Sys2Proof.Laws.EncodeLength

/-- The length of an instruction's encoding is `1 + NOPS(op)` words. -/
def Statement (i : Instr) : Prop :=
  nops i.opcode.toNat = some i.operands.length ∧ (encode i).length = 1 + i.operands.length

theorem syscall : Statement (.syscall) := ⟨rfl, rfl⟩

theorem movValueToRegister (reg value : Word) : Statement (.movValueToRegister reg value) := ⟨rfl, rfl⟩

theorem movRegisterToRegister (dst src : Word) : Statement (.movRegisterToRegister dst src) := ⟨rfl, rfl⟩

theorem movMemoryToRegister (reg addr : Word) : Statement (.movMemoryToRegister reg addr) := ⟨rfl, rfl⟩

theorem movValueToMemory (addr value : Word) : Statement (.movValueToMemory addr value) := ⟨rfl, rfl⟩

theorem movRegisterToMemory (addr reg : Word) : Statement (.movRegisterToMemory addr reg) := ⟨rfl, rfl⟩

theorem addValue (reg value : Word) : Statement (.addValue reg value) := ⟨rfl, rfl⟩

theorem addRegister (dst src : Word) : Statement (.addRegister dst src) := ⟨rfl, rfl⟩

theorem subValue (reg value : Word) : Statement (.subValue reg value) := ⟨rfl, rfl⟩

theorem subRegister (dst src : Word) : Statement (.subRegister dst src) := ⟨rfl, rfl⟩

theorem mulValue (value : Word) : Statement (.mulValue value) := ⟨rfl, rfl⟩

theorem mulRegister (reg : Word) : Statement (.mulRegister reg) := ⟨rfl, rfl⟩

theorem divValue (value : Word) : Statement (.divValue value) := ⟨rfl, rfl⟩

theorem divRegister (reg : Word) : Statement (.divRegister reg) := ⟨rfl, rfl⟩

theorem movValueToMemAtRegister (reg value : Word) : Statement (.movValueToMemAtRegister reg value) := ⟨rfl, rfl⟩

theorem movRegisterToMemAtRegister (reg srcReg : Word) : Statement (.movRegisterToMemAtRegister reg srcReg) := ⟨rfl, rfl⟩

theorem movMemToMem (addr addr2 : Word) : Statement (.movMemToMem addr addr2) := ⟨rfl, rfl⟩

theorem movMemToMemAtRegister (reg addr2 : Word) : Statement (.movMemToMemAtRegister reg addr2) := ⟨rfl, rfl⟩

theorem movMemAtRegisterToRegister (reg addrReg : Word) : Statement (.movMemAtRegisterToRegister reg addrReg) := ⟨rfl, rfl⟩

theorem movMemAtRegisterToMem (addr addrReg : Word) : Statement (.movMemAtRegisterToMem addr addrReg) := ⟨rfl, rfl⟩

theorem movMemAtRegisterToMemAtRegister (reg addrReg : Word) : Statement (.movMemAtRegisterToMemAtRegister reg addrReg) := ⟨rfl, rfl⟩

theorem incrementRegister (reg : Word) : Statement (.incrementRegister reg) := ⟨rfl, rfl⟩

theorem incrementMemory (addr : Word) : Statement (.incrementMemory addr) := ⟨rfl, rfl⟩

theorem incrementMemoryAtRegister (reg : Word) : Statement (.incrementMemoryAtRegister reg) := ⟨rfl, rfl⟩

theorem decrementRegister (reg : Word) : Statement (.decrementRegister reg) := ⟨rfl, rfl⟩

theorem decrementMemory (addr : Word) : Statement (.decrementMemory addr) := ⟨rfl, rfl⟩

theorem decrementMemoryAtRegister (reg : Word) : Statement (.decrementMemoryAtRegister reg) := ⟨rfl, rfl⟩

theorem compareValue (reg value : Word) : Statement (.compareValue reg value) := ⟨rfl, rfl⟩

theorem compareRegister (reg reg2 : Word) : Statement (.compareRegister reg reg2) := ⟨rfl, rfl⟩

theorem jump (target : Word) : Statement (.jump target) := ⟨rfl, rfl⟩

theorem jumpIfEqual (target : Word) : Statement (.jumpIfEqual target) := ⟨rfl, rfl⟩

end Sys2Proof.Laws.EncodeLength
end

