-- ==== Sys2Proof/Laws/Scheduler.lean ====
section
/-! SUPPORT. What the host port, the executor step, the scheduler step and the whole step can do, said
once each. -/

namespace Sys2Proof.Machine

open Host (Outcome)

/-! ### The host port -/

theorem State.dueCall_nil {s : State} (h : s.host = []) : s.dueCall = none := by
  simp [State.dueCall, h]

theorem State.dueCall_cons {s : State} {c : HostCall} {rest : List HostCall}
    (h : s.host = c :: rest) :
    s.dueCall = if c.acceptedIn s.mstate then some (c, { s with host := rest }) else none := by
  simp [State.dueCall, h]

/-- Everything `dueCall` can answer. -/
theorem State.dueCall_some {s t : State} {c : HostCall} (h : s.dueCall = some (c, t)) :
    ∃ rest, s.host = c :: rest ∧ c.acceptedIn s.mstate = true ∧ t = { s with host := rest } := by
  unfold State.dueCall at h
  split at h
  · cases h
  · next c' rest hh =>
    split at h
    · next ha =>
      cases h
      exact ⟨rest, hh, ha, rfl⟩
    · cases h

/-- A run state in which only a reset can be due. -/
theorem State.dueCall_none_of_run {s : State} (h : s.mstate = .run)
    (hr : ∀ rest, s.host ≠ .reset :: rest) : s.dueCall = none := by
  unfold State.dueCall
  split
  · rfl
  · next c rest hh =>
    cases c with
    | reset => exact absurd hh (hr rest)
    | load _ _ _ => simp [HostCall.acceptedIn, h]
    | start => simp [HostCall.acceptedIn, h]
    | resume => simp [HostCall.acceptedIn, h]

/-- Everything `hostLoad` can do. -/
theorem State.hostLoad_spec (s : State) (stream : List Word) (heapSize : Nat) (uid : Word) :
    (s.loadFits stream heapSize = true ∧
        s.hostLoad stream heapSize uid =
          { s with pt := s.pt ++ [Process.create s.pt.length stream heapSize uid] }) ∨
      (s.loadFits stream heapSize = false ∧ s.hostLoad stream heapSize uid = s) := by
  cases h : s.loadFits stream heapSize <;> simp [State.hostLoad, h]

theorem State.loadFits_iff {s : State} {stream : List Word} {heapSize : Nat} :
    s.loadFits stream heapSize = true ↔
      stream.length ≤ maxStreamLength ∧ heapSize ≤ maxHeapSize ∧
        ∀ n, s.cfg.nprocMax = some n → s.pt.length < n := by
  unfold State.loadFits
  cases s.cfg.nprocMax <;> simp [and_assoc]

/-- A freshly created process has a heap of zeros, whatever its size. -/
@[simp] theorem Process.heapWord_create (k : Nat) (ws : List Word) (n : Nat) (uid : Word) (a : Nat) :
    (Process.create k ws n uid).heapWord a = 0#32 := rfl

@[simp] theorem Process.reg_create (k : Nat) (ws : List Word) (n : Nat) (uid : Word) (r : Reg) :
    (Process.create k ws n uid).reg r = 0#32 := RegFile.get_all _ _

/-! ### The executor step -/

theorem Process.live_iff {p : Process} : p.live = true ↔ p.pc.toNat < p.stream.length :=
  decide_eq_true_iff

/-- Words are there to decode exactly when the process is live. -/
theorem Process.fetchWords_eq_nil {p : Process} : p.fetchWords = [] ↔ p.live = false := by
  rw [← Bool.not_eq_true, Process.live_iff, Nat.not_lt]
  exact List.drop_eq_nil_iff

theorem Process.live_of_decode {p : Process} {i : Instr} {rest : List Word}
    (h : decode p.fetchWords = .instr i rest) : p.live = true := by
  cases hl : p.live with
  | true => rfl
  | false =>
    rw [Process.fetchWords_eq_nil.mpr hl] at h
    cases h

theorem State.execStep_instr {s : State} {p : Process} {i : Instr} {rest : List Word}
    (hp : s.current = some p) (h : decode p.fetchWords = .instr i rest) :
    s.execStep = exec i s := by
  simp [State.execStep, hp, h, Process.live_of_decode h]

/-- Everything the executor step can do when it answers a next state. -/
theorem State.execStep_next {s t : State} (h : s.execStep = .next t) :
    ∃ p, s.current = some p ∧
      ((p.live = false ∧ t = s) ∨
        (p.live = true ∧ ∃ op, decode p.fetchWords = .reject (.unknownOpcode op) ∧
          t = s.raise ⟨.unknownOpcode, op⟩) ∨
        (p.live = true ∧ ∃ op, decode p.fetchWords = .reject (.truncated op) ∧
          t = s.raise ⟨.truncatedInstruction, op⟩) ∨
        (p.live = true ∧ ∃ i rest, decode p.fetchWords = .instr i rest ∧ exec i s = .next t)) := by
  unfold State.execStep at h
  split at h
  · cases h
  · next p hp =>
    refine ⟨p, hp, ?_⟩
    split at h
    · next hl =>
      split at h
      · next i rest hd => exact .inr (.inr (.inr ⟨hl, i, rest, hd, h⟩))
      · next hd =>
        exfalso
        unfold decode at hd
        split at hd
        · next hn => simp [Process.fetchWords_eq_nil.mp hn] at hl
        · split at hd
          · cases hd
          · split at hd
            · cases hd
            · split at hd <;> cases hd
      · next op hd => exact .inr (.inl ⟨hl, op, hd, by cases h; rfl⟩)
      · next op hd => exact .inr (.inr (.inl ⟨hl, op, hd, by cases h; rfl⟩))
    · next hl => exact .inl ⟨by simpa using hl, by cases h; rfl⟩

/-! ### The scheduler step -/

/-- What accounting does after a step whose process is `p` now. -/
theorem State.account_of_current {s : State} {p : Process} (h : s.current = some p) :
    s.account = if p.live then { s with qstep := s.qstep + 1, cur := (s.cur + 1) % s.pt.length }
      else { s with
        qstep := s.qstep + 1
        pt := s.pt.eraseIdx s.cur
        cur := if s.cur ≥ (s.pt.eraseIdx s.cur).length then 0 else s.cur
        halted := s.halted ++ [p] } := by
  have h' : ({ s with qstep := s.qstep + 1 } : State).current = some p := h
  simp only [State.account, h']
  split <;> rfl

/-- Everything the scheduler step can do when it answers a next state. -/
theorem State.schedStep_next {s t : State} (h : s.schedStep = .next t) :
    (s.pt = [] ∧ t = { s with mstate := .stopped }) ∨
      (s.pt ≠ [] ∧ s.qstep = s.cfg.quantum ∧ t = { s with mstate := .yield }) ∨
      (s.pt ≠ [] ∧ s.qstep ≠ s.cfg.quantum ∧
        ((t.mstate = .aborted ∧ s.execStep = .next t) ∨
          ∃ u, s.execStep = .next u ∧ u.mstate ≠ .aborted ∧ t = u.account)) := by
  unfold State.schedStep at h
  split at h
  · next hn => exact .inl ⟨List.length_eq_zero_iff.mp hn, by cases h; rfl⟩
  · next hn =>
    have hne : s.pt ≠ [] := fun e => hn (by simp [e])
    split at h
    · next hq => exact .inr (.inl ⟨hne, hq, by cases h; rfl⟩)
    · next hq =>
      refine .inr (.inr ⟨hne, hq, ?_⟩)
      split at h
      · next u hu =>
        split at h
        · next ha =>
          cases h
          exact .inl ⟨ha, hu⟩
        · next ha => exact .inr ⟨u, hu, ha, by cases h; rfl⟩
      · cases h
      · cases h

/-- Everything accounting can do. -/
theorem State.account_cases (s : State) :
    (s.current = none ∧ s.account = { s with qstep := s.qstep + 1 }) ∨
      (∃ p, s.current = some p ∧ p.live = true ∧
        s.account = { s with qstep := s.qstep + 1, cur := (s.cur + 1) % s.pt.length }) ∨
      (∃ p, s.current = some p ∧ p.live = false ∧
        s.account = { s with
          qstep := s.qstep + 1
          pt := s.pt.eraseIdx s.cur
          cur := if s.cur ≥ (s.pt.eraseIdx s.cur).length then 0 else s.cur
          halted := s.halted ++ [p] }) := by
  cases h : s.current with
  | none =>
    have h' : ({ s with qstep := s.qstep + 1 } : State).current = none := h
    exact .inl ⟨rfl, by simp only [State.account, h']⟩
  | some p =>
    rw [State.account_of_current h]
    cases hl : p.live with
    | true => exact .inr (.inl ⟨p, rfl, hl, by simp⟩)
    | false => exact .inr (.inr ⟨p, rfl, hl, by simp⟩)

/-! ### The whole step -/

theorem step_of_due {s t : State} {c : HostCall} (h : s.dueCall = some (c, t)) :
    step s = .next (t.hostCall c) := by
  simp [step, h]

theorem step_of_none {s : State} (h : s.dueCall = none) : step s = s.ownStep := by
  simp [step, h]

theorem State.ownStep_run {s : State} (h : s.mstate = .run) : s.ownStep = s.schedStep := by
  simp [State.ownStep, h]

theorem State.ownStep_idle {s : State} (h : s.mstate ≠ .run) : s.ownStep = .next s := by
  unfold State.ownStep
  split <;> first | contradiction | rfl

/-- Everything a step can do when it answers a next state. -/
theorem step_next {s t : State} (h : step s = .next t) :
    (∃ c rest, s.host = c :: rest ∧ c.acceptedIn s.mstate = true ∧
        t = ({ s with host := rest } : State).hostCall c) ∨
      (s.dueCall = none ∧ s.mstate ≠ .run ∧ t = s) ∨
      (s.dueCall = none ∧ s.mstate = .run ∧ s.schedStep = .next t) := by
  cases hd : s.dueCall with
  | some x =>
    obtain ⟨c, u⟩ := x
    rw [step_of_due hd] at h
    obtain ⟨rest, hh, ha, rfl⟩ := State.dueCall_some hd
    exact .inl ⟨c, rest, hh, ha, by cases h; rfl⟩
  | none =>
    rw [step_of_none hd] at h
    by_cases hm : s.mstate = .run
    · rw [State.ownStep_run hm] at h
      exact .inr (.inr ⟨rfl, hm, h⟩)
    · rw [State.ownStep_idle hm] at h
      exact .inr (.inl ⟨rfl, hm, by cases h; rfl⟩)

/-! ### Runs -/

theorem core_run_zero (s : State) : Sys2Proof.core.run 0 s = .next s := rfl

/-- A run of `k + 1` steps begins with its first step. -/
theorem host_run_succ (M : Host.Core) {s t : M.State} (k : Nat) (h : M.step s = .next t) :
    M.run (k + 1) s = M.run k t := by
  simp only [Host.Core.run, h]

theorem core_run_succ {s t : State} (k : Nat) (h : step s = .next t) :
    Sys2Proof.core.run (k + 1) s = Sys2Proof.core.run k t := host_run_succ Sys2Proof.core k h

theorem host_run_snoc (M : Host.Core) {s t u : M.State} (k : Nat) (h : M.run k s = .next t)
    (ht : M.step t = .next u) : M.run (k + 1) s = .next u := by
  induction k generalizing s with
  | zero =>
    cases h
    simp [Host.Core.run, ht]
  | succ k ih =>
    cases hs : M.step s with
    | next s' =>
      rw [host_run_succ M k hs] at h
      rw [host_run_succ M _ hs]
      exact ih h
    | fault r => simp [Host.Core.run, hs] at h
    | refused r => simp [Host.Core.run, hs] at h

/-- A run of `k + 1` steps ends with its last step. -/
theorem core_run_snoc {s t u : State} (k : Nat) (h : Sys2Proof.core.run k s = .next t)
    (ht : step t = .next u) : Sys2Proof.core.run (k + 1) s = .next u :=
  host_run_snoc Sys2Proof.core k h ht

end Sys2Proof.Machine
end

