-- ==== Sys2Proof/Tests/Slice0.lean ====
section
/-! SUPPORT. The model's own tests, all by the kernel: the WellFormed smoke tests, one decoded word list for
every constructor (written out from the opcode map R62), at most two one-step tests for each instruction
with the expected values of the spec's vectors (`95_test_vectors.md`, `43_muldiv.md` section 4), the scheduler
vectors, and for every obligation with hypotheses a witness that meets them. -/

namespace Sys2Proof.Tests

open Sys2Proof.Machine

/-! ### Helpers -/

/-- Six registers by their numbers. -/
def regsT (a b c d e f : Nat) : RegFile :=
  ⟨BitVec.ofNat 32 a, BitVec.ofNat 32 b, BitVec.ofNat 32 c, BitVec.ofNat 32 d, BitVec.ofNat 32 e,
    BitVec.ofNat 32 f⟩

/-- A fresh process with given registers, flags `zero` and `carry`, and heap. -/
def procT (r : RegFile) (z c : Bool) (heap : Memory) : Process :=
  { Process.create 0 [] 256 0#32 with regs := r, flags := ⟨z, c, false⟩, heap := heap }

/-- The start of the move vectors V2. -/
def moveT : Process :=
  procT (regsT 0 7 0 0 20 30) false false [(1, 8#32), (10, 0xdeadbeef#32), (20, 9#32)]

/-- A running machine with one process. -/
def runT (p : Process) : State := { State.reset with pt := [p], mstate := .run }

/-- The next state, where there is one. -/
def nextT (o : Host.Outcome State Fault Refusal) : Option State :=
  match o with
  | .next t => some t
  | .fault _ => none
  | .refused _ => none

/-- The machine after one step of the process on these words; a word after them keeps it live. -/
def stepT (ws : List Word) (p : Process) : Option State :=
  nextT (step (runT { p with stream := ws ++ [0#32] }))

/-- The process after one step on these words. -/
def after (ws : List Word) (p : Process) : Option Process := (stepT ws p).bind State.current

/-- One register and pc after one step on these words. -/
def regAfter (ws : List Word) (p : Process) (r : Reg) : Option (Word × Word) :=
  (after ws p).map (fun q => (q.reg r, q.pc))

/-- One heap word and pc after one step on these words. -/
def heapAfter (ws : List Word) (p : Process) (a : Nat) : Option (Word × Word) :=
  (after ws p).map (fun q => (q.heapWord a, q.pc))

/-- `x[0]` and `x[3]` after one step on these words. -/
def pairAfter (ws : List Word) (p : Process) : Option (Word × Word) :=
  (after ws p).map (fun q => (q.reg .r0, q.reg .r3))

/-- `zero` and `carry` after one step on these words. -/
def flagsAfter (ws : List Word) (p : Process) : Option (Bool × Bool) :=
  (after ws p).map (fun q => (q.flags.zero, q.flags.carry))

/-- The cause and the information of the abort after one step on these words. -/
def abortAfter (ws : List Word) (p : Process) : Option (MState × Cause × Word) :=
  (stepT ws p).map (fun t => (t.mstate, t.acause, t.aval))

/-- The console output after one step on these words. -/
def outAfter (ws : List Word) (p : Process) : Option (List Event) := (stepT ws p).map State.out

/-! ### WellFormed: an ill-formed term for each check is refused -/

/-- Operand word 1 is a `reg` of 6: refused (R52, R57). -/
theorem test_wellFormed_refuses_first_register :
    ([
      .movValueToRegister 6#32 0#32,
      .movMemoryToRegister 6#32 0#32,
      .addValue 6#32 0#32,
      .subValue 6#32 0#32,
      .movValueToMemAtRegister 6#32 0#32,
      .movMemToMemAtRegister 6#32 0#32,
      .compareValue 6#32 0#32,
      .addRegister 6#32 5#32,
      .compareRegister 6#32 5#32,
      .movMemAtRegisterToMemAtRegister 6#32 5#32,
      .movMemAtRegisterToRegister 6#32 5#32,
      .movRegisterToMemAtRegister 6#32 5#32,
      .movRegisterToRegister 6#32 5#32,
      .subRegister 6#32 5#32
    ] : List Instr).all (fun i => i.wellFormed == false) = true := by decide

/-- Operand word 2 is a `reg` of 6: refused. -/
theorem test_wellFormed_refuses_second_register :
    ([
      .addRegister 5#32 6#32,
      .compareRegister 5#32 6#32,
      .movMemAtRegisterToMemAtRegister 5#32 6#32,
      .movMemAtRegisterToRegister 5#32 6#32,
      .movRegisterToMemAtRegister 5#32 6#32,
      .movRegisterToRegister 5#32 6#32,
      .subRegister 5#32 6#32,
      .movRegisterToMemory 0#32 6#32,
      .movMemAtRegisterToMem 0#32 6#32
    ] : List Instr).all (fun i => i.wellFormed == false) = true := by decide

/-- The one operand word is a `reg` of 6: refused. -/
theorem test_wellFormed_refuses_only_register :
    ([
      .mulRegister 6#32,
      .divRegister 6#32,
      .incrementRegister 6#32,
      .incrementMemoryAtRegister 6#32,
      .decrementRegister 6#32,
      .decrementMemoryAtRegister 6#32
    ] : List Instr).all (fun i => i.wellFormed == false) = true := by decide

/-- The same instructions with legal registers. -/
theorem test_wellFormed_accepts :
    ([
      .movValueToRegister 5#32 6#32,
      .movMemoryToRegister 5#32 6#32,
      .addValue 5#32 6#32,
      .subValue 5#32 6#32,
      .movValueToMemAtRegister 5#32 6#32,
      .movMemToMemAtRegister 5#32 6#32,
      .compareValue 5#32 6#32,
      .addRegister 5#32 0#32,
      .compareRegister 5#32 0#32,
      .movMemAtRegisterToMemAtRegister 5#32 0#32,
      .movMemAtRegisterToRegister 5#32 0#32,
      .movRegisterToMemAtRegister 5#32 0#32,
      .movRegisterToRegister 5#32 0#32,
      .subRegister 5#32 0#32,
      .movRegisterToMemory 6#32 5#32,
      .movMemAtRegisterToMem 6#32 5#32,
      .mulRegister 5#32,
      .divRegister 5#32,
      .incrementRegister 5#32,
      .incrementMemoryAtRegister 5#32,
      .decrementRegister 5#32,
      .decrementMemoryAtRegister 5#32
    ] : List Instr).all (fun i => i.wellFormed == true) = true := by decide

/-- Instructions without a `reg` operand: any word is legal (R57). -/
theorem test_wellFormed_any_value_address_target :
    ([
      .syscall,
      .movValueToMemory 6#32 6#32,
      .movMemToMem 6#32 6#32,
      .mulValue 6#32,
      .divValue 0#32,
      .incrementMemory 6#32,
      .decrementMemory 6#32,
      .jump 0xffffffff#32,
      .jumpIfEqual 6#32
    ] : List Instr).all (fun i => i.wellFormed == true) = true := by decide

/-- A word with high bits set names no register: no masking (D27). -/
theorem test_wellFormed_unmasked : (Instr.incrementRegister 8#32).wellFormed = false ∧
    (Instr.incrementRegister 0x80000000#32).wellFormed = false := by decide

/-! ### Decode: one word list for every constructor, written out from R62 -/

theorem test_decode_syscall :
    decode [0x0#32, 0x7#32] = .instr (.syscall) [0x7#32] := by decide

theorem test_decode_mov_value_to_register :
    decode [0x1#32, 0xa1#32, 0xb2#32, 0x7#32] = .instr (.movValueToRegister 0xa1#32 0xb2#32) [0x7#32] := by decide

theorem test_decode_mov_register_to_register :
    decode [0x2#32, 0xa1#32, 0xb2#32, 0x7#32] = .instr (.movRegisterToRegister 0xa1#32 0xb2#32) [0x7#32] := by decide

theorem test_decode_mov_memory_to_register :
    decode [0x3#32, 0xa1#32, 0xb2#32, 0x7#32] = .instr (.movMemoryToRegister 0xa1#32 0xb2#32) [0x7#32] := by decide

theorem test_decode_mov_value_to_memory :
    decode [0x4#32, 0xa1#32, 0xb2#32, 0x7#32] = .instr (.movValueToMemory 0xa1#32 0xb2#32) [0x7#32] := by decide

theorem test_decode_mov_register_to_memory :
    decode [0x5#32, 0xa1#32, 0xb2#32, 0x7#32] = .instr (.movRegisterToMemory 0xa1#32 0xb2#32) [0x7#32] := by decide

theorem test_decode_add_value :
    decode [0x6#32, 0xa1#32, 0xb2#32, 0x7#32] = .instr (.addValue 0xa1#32 0xb2#32) [0x7#32] := by decide

theorem test_decode_add_register :
    decode [0x7#32, 0xa1#32, 0xb2#32, 0x7#32] = .instr (.addRegister 0xa1#32 0xb2#32) [0x7#32] := by decide

theorem test_decode_sub_value :
    decode [0x8#32, 0xa1#32, 0xb2#32, 0x7#32] = .instr (.subValue 0xa1#32 0xb2#32) [0x7#32] := by decide

theorem test_decode_sub_register :
    decode [0x9#32, 0xa1#32, 0xb2#32, 0x7#32] = .instr (.subRegister 0xa1#32 0xb2#32) [0x7#32] := by decide

theorem test_decode_mul_value :
    decode [0xa#32, 0xa1#32, 0x7#32] = .instr (.mulValue 0xa1#32) [0x7#32] := by decide

theorem test_decode_mul_register :
    decode [0xb#32, 0xa1#32, 0x7#32] = .instr (.mulRegister 0xa1#32) [0x7#32] := by decide

theorem test_decode_div_value :
    decode [0xc#32, 0xa1#32, 0x7#32] = .instr (.divValue 0xa1#32) [0x7#32] := by decide

theorem test_decode_div_register :
    decode [0xd#32, 0xa1#32, 0x7#32] = .instr (.divRegister 0xa1#32) [0x7#32] := by decide

theorem test_decode_mov_value_to_mem_at_register :
    decode [0xe#32, 0xa1#32, 0xb2#32, 0x7#32] = .instr (.movValueToMemAtRegister 0xa1#32 0xb2#32) [0x7#32] := by decide

theorem test_decode_mov_register_to_mem_at_register :
    decode [0xf#32, 0xa1#32, 0xb2#32, 0x7#32] = .instr (.movRegisterToMemAtRegister 0xa1#32 0xb2#32) [0x7#32] := by decide

theorem test_decode_mov_mem_to_mem :
    decode [0x10#32, 0xa1#32, 0xb2#32, 0x7#32] = .instr (.movMemToMem 0xa1#32 0xb2#32) [0x7#32] := by decide

theorem test_decode_mov_mem_to_mem_at_register :
    decode [0x11#32, 0xa1#32, 0xb2#32, 0x7#32] = .instr (.movMemToMemAtRegister 0xa1#32 0xb2#32) [0x7#32] := by decide

theorem test_decode_mov_mem_at_register_to_register :
    decode [0x12#32, 0xa1#32, 0xb2#32, 0x7#32] = .instr (.movMemAtRegisterToRegister 0xa1#32 0xb2#32) [0x7#32] := by decide

theorem test_decode_mov_mem_at_register_to_mem :
    decode [0x13#32, 0xa1#32, 0xb2#32, 0x7#32] = .instr (.movMemAtRegisterToMem 0xa1#32 0xb2#32) [0x7#32] := by decide

theorem test_decode_mov_mem_at_register_to_mem_at_register :
    decode [0x14#32, 0xa1#32, 0xb2#32, 0x7#32] = .instr (.movMemAtRegisterToMemAtRegister 0xa1#32 0xb2#32) [0x7#32] := by decide

theorem test_decode_increment_register :
    decode [0x15#32, 0xa1#32, 0x7#32] = .instr (.incrementRegister 0xa1#32) [0x7#32] := by decide

theorem test_decode_increment_memory :
    decode [0x16#32, 0xa1#32, 0x7#32] = .instr (.incrementMemory 0xa1#32) [0x7#32] := by decide

theorem test_decode_increment_memory_at_register :
    decode [0x17#32, 0xa1#32, 0x7#32] = .instr (.incrementMemoryAtRegister 0xa1#32) [0x7#32] := by decide

theorem test_decode_decrement_register :
    decode [0x18#32, 0xa1#32, 0x7#32] = .instr (.decrementRegister 0xa1#32) [0x7#32] := by decide

theorem test_decode_decrement_memory :
    decode [0x19#32, 0xa1#32, 0x7#32] = .instr (.decrementMemory 0xa1#32) [0x7#32] := by decide

theorem test_decode_decrement_memory_at_register :
    decode [0x1a#32, 0xa1#32, 0x7#32] = .instr (.decrementMemoryAtRegister 0xa1#32) [0x7#32] := by decide

theorem test_decode_compare_value :
    decode [0x1b#32, 0xa1#32, 0xb2#32, 0x7#32] = .instr (.compareValue 0xa1#32 0xb2#32) [0x7#32] := by decide

theorem test_decode_compare_register :
    decode [0x1c#32, 0xa1#32, 0xb2#32, 0x7#32] = .instr (.compareRegister 0xa1#32 0xb2#32) [0x7#32] := by decide

theorem test_decode_jump :
    decode [0x1d#32, 0xa1#32, 0x7#32] = .instr (.jump 0xa1#32) [0x7#32] := by decide

theorem test_decode_jump_if_equal :
    decode [0x1e#32, 0xa1#32, 0x7#32] = .instr (.jumpIfEqual 0xa1#32) [0x7#32] := by decide

/-- The same through the host's entry point, with the operand words of zeros that the table's 32 bits
leave. -/
theorem test_decodeTableWord : decodeTableWord 32 0x14 = some (.movMemAtRegisterToMemAtRegister 0#32 0#32) ∧
    decodeTableWord 96 0x00000009000000040000001b = some (.compareValue 4#32 9#32) ∧
    decodeTableWord 32 0x1f = none := by decide

/-- 0x11d is not a jump: the whole word is the opcode (D27, N20). -/
theorem test_decode_unknown : decode [0x1f#32] = .reject (.unknownOpcode 0x1f#32) ∧
    decode [0x11d#32, 0#32] = .reject (.unknownOpcode 0x11d#32) ∧
    decode [0xffffffff#32] = .reject (.unknownOpcode 0xffffffff#32) := by decide

/-- V7.3, V7.4. -/
theorem test_decode_truncated : decode [0x1e#32] = .reject (.truncated 0x1e#32) ∧
    decode [0x1#32, 0#32] = .reject (.truncated 0x1#32) ∧ decode [] = .reject .noWord := by decide

/-! ### One step of each instruction (vectors S1 to S8, V1 to V6) -/

/-- V1.5, V1.6: the last two heap words, and one word too many. -/
theorem test_syscall_text :
    outAfter [0x0#32] (procT (regsT 0 254 256 0 0 0) false false [(254, 1#32), (255, 2#32)]) = some [.text [1#32, 2#32]] ∧
    abortAfter [0x0#32] (procT (regsT 0 254 257 0 0 0) false false []) = some (.aborted, .heapBounds, 256#32) := by decide

/-- V1.1, V1.4, V1.7, V1.9. -/
theorem test_syscall_number :
    outAfter [0x0#32] (procT (regsT 1 42 0 0 0 0) false false []) = some [.number 42#32] ∧
    outAfter [0x0#32] (procT (regsT 0 5 2 0 0 0) false false []) = some [.text []] ∧
    abortAfter [0x0#32] (procT (regsT 0 300 301 0 0 0) false false []) = some (.aborted, .heapBounds, 300#32) ∧
    outAfter [0x0#32] (procT (regsT 0xffffffff 0 0 0 0 0) false false []) = some [] := by decide

/-- V2.2. -/
theorem test_mov_value_to_register :
    regAfter [0x1#32, 0x5#32, 0xffffffff#32] moveT .r5 = some (0xffffffff#32, 3#32) := by decide

/-- V2.23. -/
theorem test_mov_value_to_register_bad :
    abortAfter [0x1#32, 0x6#32, 0x5#32] moveT = some (.aborted, .badRegister, 6#32) := by decide

/-- V2.3. -/
theorem test_mov_register_to_register :
    regAfter [0x2#32, 0x4#32, 0x1#32] moveT .r4 = some (7#32, 3#32) := by decide

/-- V2.5. -/
theorem test_mov_memory_to_register :
    regAfter [0x3#32, 0x2#32, 0xa#32] moveT .r2 = some (0xdeadbeef#32, 3#32) := by decide

/-- V2.6. -/
theorem test_mov_memory_to_register_unwritten :
    regAfter [0x3#32, 0x2#32, 0x63#32] moveT .r2 = some (0#32, 3#32) := by decide

/-- V2.8: the last address of the heap. -/
theorem test_mov_value_to_memory :
    heapAfter [0x4#32, 0xff#32, 0x1#32] moveT 255 = some (1#32, 3#32) := by decide

/-- V2.9: the first address after it. -/
theorem test_mov_value_to_memory_bounds :
    abortAfter [0x4#32, 0x100#32, 0x1#32] moveT = some (.aborted, .heapBounds, 256#32) := by decide

/-- V2.10. -/
theorem test_mov_register_to_memory :
    heapAfter [0x5#32, 0x10#32, 0x1#32] moveT 16 = some (7#32, 3#32) := by decide

/-- V2.26: the register before the address. -/
theorem test_mov_register_to_memory_order :
    abortAfter [0x5#32, 0x12c#32, 0x9#32] moveT = some (.aborted, .badRegister, 9#32) := by decide

/-- V2.12. -/
theorem test_mov_value_to_mem_at_register :
    heapAfter [0xe#32, 0x5#32, 0x9#32] moveT 30 = some (9#32, 3#32) := by decide

/-- V2.13. -/
theorem test_mov_register_to_mem_at_register :
    heapAfter [0xf#32, 0x5#32, 0x1#32] moveT 30 = some (7#32, 3#32) := by decide

/-- V2.14. -/
theorem test_mov_register_to_mem_at_register_same :
    heapAfter [0xf#32, 0x4#32, 0x4#32] moveT 20 = some (20#32, 3#32) := by decide

/-- V2.15. -/
theorem test_mov_mem_to_mem :
    heapAfter [0x10#32, 0x2#32, 0x1#32] moveT 2 = some (8#32, 3#32) := by decide

/-- V2.24: the source first. -/
theorem test_mov_mem_to_mem_order :
    abortAfter [0x10#32, 0x12c#32, 0x190#32] moveT = some (.aborted, .heapBounds, 400#32) := by decide

/-- V2.17. -/
theorem test_mov_mem_to_mem_at_register :
    heapAfter [0x11#32, 0x5#32, 0x1#32] moveT 30 = some (8#32, 3#32) := by decide

/-- V2.18. -/
theorem test_mov_mem_at_register_to_register :
    regAfter [0x12#32, 0x0#32, 0x4#32] moveT .r0 = some (9#32, 3#32) := by decide

/-- V2.19: the pointer replaced by the pointee. -/
theorem test_mov_mem_at_register_to_register_same :
    regAfter [0x12#32, 0x4#32, 0x4#32] moveT .r4 = some (9#32, 3#32) := by decide

/-- V2.20. -/
theorem test_mov_mem_at_register_to_mem :
    heapAfter [0x13#32, 0x7#32, 0x4#32] moveT 7 = some (9#32, 3#32) := by decide

/-- V2.21. -/
theorem test_mov_mem_at_register_to_mem_at_register :
    heapAfter [0x14#32, 0x5#32, 0x4#32] moveT 30 = some (9#32, 3#32) := by decide

/-- V2.25: operand word 1 before operand word 2. -/
theorem test_mov_mem_at_register_to_mem_at_register_order :
    abortAfter [0x14#32, 0x6#32, 0x7#32] moveT = some (.aborted, .badRegister, 6#32) := by decide

/-- V3.1, V3.3. -/
theorem test_add_value :
    (after [0x6#32, 0x2#32, 0x20#32] (procT (regsT 0 0 0xfffffff0 0 0 0) false false [])).map (fun q => (q.reg .r2, q.flags.carry)) = some (0x10#32, true) ∧
    flagsAfter [0x6#32, 0x0#32, 0x1#32] (procT (regsT 0xffffffff 0 0 0 0 0) true false []) = some (true, true) := by decide

/-- V3.2, and S1: a sum of 0xffffffff is no overflow. -/
theorem test_add_value_clears_carry :
    flagsAfter [0x6#32, 0x2#32, 0x0#32] (procT (regsT 0 0 5 0 0 0) false true []) = some (false, false) ∧
    flagsAfter [0x6#32, 0x2#32, 0xf#32] (procT (regsT 0 0 0xfffffff0 0 0 0) false false []) = some (false, false) := by decide

/-- V3.5, V3.6: no carry written. -/
theorem test_add_register :
    (after [0x7#32, 0x0#32, 0x1#32] (procT (regsT 0xffffffff 1 0 0 0 0) false false [])).map (fun q => (q.reg .r0, q.flags.carry)) = some (0#32, false) ∧
    flagsAfter [0x7#32, 0x0#32, 0x1#32] (procT (regsT 5 7 0 0 0 0) false true []) = some (false, true) := by decide

/-- V3.7: doubling wraps. -/
theorem test_add_register_same :
    regAfter [0x7#32, 0x3#32, 0x3#32] (procT (regsT 0 0 0 0x80000000 0 0) false false []) .r3 = some (0#32, 3#32) := by decide

/-- V3.9. -/
theorem test_sub_value :
    regAfter [0x8#32, 0x0#32, 0x1#32] (procT (regsT 0 0 0 0 0 0) false false []) .r0 = some (0xffffffff#32, 3#32) := by decide

/-- V3.10: a result of 0 does not set zero. -/
theorem test_sub_value_flags :
    flagsAfter [0x8#32, 0x0#32, 0x5#32] (procT (regsT 5 0 0 0 0 0) false false []) = some (false, false) := by decide

/-- V3.11. -/
theorem test_sub_register :
    regAfter [0x9#32, 0x1#32, 0x2#32] (procT (regsT 0 10 4 0 0 0) false false []) .r1 = some (6#32, 3#32) := by decide

/-- V3.12. -/
theorem test_sub_register_wraps :
    regAfter [0x9#32, 0x1#32, 0x2#32] (procT (regsT 0 3 0xffffffff 0 0 0) false false []) .r1 = some (4#32, 3#32) := by decide

/-- The fifth row of the table of 43_muldiv.md. -/
theorem test_mul_value :
    pairAfter [0xa#32, 0x9abcdef0#32] (procT (regsT 0x12345678 0 0 99 0 0) false false []) = some (0x242d2080#32, 0x0b00ea4e#32) := by decide

/-- V5.2. -/
theorem test_mul_value_max :
    pairAfter [0xa#32, 0xffffffff#32] (procT (regsT 0xffffffff 0 0 0 0 0) false false []) = some (1#32, 0xfffffffe#32) := by decide

/-- V5.3. -/
theorem test_mul_register :
    pairAfter [0xb#32, 0x2#32] (procT (regsT 0x10000 0 0x10000 0 0 0) false false []) = some (0#32, 1#32) := by decide

/-- V5.5: the old x[3] is the multiplier. -/
theorem test_mul_register_three :
    pairAfter [0xb#32, 0x3#32] (procT (regsT 5 0 0 4 0 0) false false []) = some (20#32, 0#32) := by decide

/-- V5.8: the quotient is truncated. -/
theorem test_div_value :
    pairAfter [0xc#32, 0x5#32] (procT (regsT 3 0 0 5 0 0) false false []) = some (0#32, 3#32) := by decide

/-- V5.12. -/
theorem test_div_value_zero :
    abortAfter [0xc#32, 0x0#32] (procT (regsT 9 0 0 0 0 0) false false []) = some (.aborted, .divideByZero, 12#32) := by decide

/-- V5.11: the divisor is the old x[3]. -/
theorem test_div_register :
    pairAfter [0xd#32, 0x3#32] (procT (regsT 10 0 0 4 0 0) false false []) = some (2#32, 2#32) := by decide

/-- V5.13, V5.14. -/
theorem test_div_register_faults :
    abortAfter [0xd#32, 0x2#32] (procT (regsT 9 0 0 0 0 0) false false []) = some (.aborted, .divideByZero, 13#32) ∧
    abortAfter [0xd#32, 0x6#32] (procT (regsT 9 0 0 0 0 0) false false []) = some (.aborted, .badRegister, 6#32) := by decide

/-- V4.1. -/
theorem test_increment_register :
    regAfter [0x15#32, 0x4#32] (procT (regsT 0 0 0 0 9 0) false false []) .r4 = some (10#32, 2#32) := by decide

/-- V4.2. -/
theorem test_increment_register_wraps :
    (after [0x15#32, 0x4#32] (procT (regsT 0 0 0 0 0xffffffff 0) false false [])).map (fun q => (q.reg .r4, q.flags)) =
      some (0#32, ⟨false, false, false⟩) := by decide

/-- V4.3: the wrap leaves a word that is not listed. -/
theorem test_increment_memory :
    heapAfter [0x16#32, 0x3#32] (procT (regsT 0 0 0 0 0 0) false false [(3, 0xffffffff#32)]) 3 = some (0#32, 2#32) := by decide

/-- V4.13. -/
theorem test_increment_memory_bounds :
    abortAfter [0x16#32, 0x100#32] (procT (regsT 0 0 0 0 0 0) false false []) = some (.aborted, .heapBounds, 256#32) := by decide

/-- V4.5. -/
theorem test_increment_memory_at_register :
    heapAfter [0x17#32, 0x4#32] (procT (regsT 0 0 0 0 20 0) false false [(20, 6#32)]) 20 = some (7#32, 2#32) := by decide

/-- V4.11. -/
theorem test_increment_memory_at_register_bounds :
    abortAfter [0x17#32, 0x4#32] (procT (regsT 0 0 0 0 256 0) false false []) = some (.aborted, .heapBounds, 256#32) := by decide

/-- V4.7. -/
theorem test_decrement_register :
    regAfter [0x18#32, 0x1#32] (procT (regsT 0 0 0 0 0 0) false false []) .r1 = some (0xffffffff#32, 2#32) := by decide

/-- V4.8, the regression vector that the source asks for: nothing else changes. -/
theorem test_decrement_memory :
    (after [0x19#32, 0x3#32] (procT (regsT 3 0 0 3 0 0) false false [(3, 5#32)])).map (fun q => (q.regs, q.heap)) =
      some (regsT 3 0 0 3 0 0, [(3, 4#32)]) := by decide

/-- V4.9. -/
theorem test_decrement_memory_wraps :
    heapAfter [0x19#32, 0x3#32] (procT (regsT 0 0 0 0 0 0) false false []) 3 = some (0xffffffff#32, 2#32) := by decide

/-- V4.10: a decrement. -/
theorem test_decrement_memory_at_register :
    (after [0x1a#32, 0x4#32] (procT (regsT 0 0 0 0 20 0) false false [(20, 6#32)])).map (fun q => (q.regs, q.heap)) =
      some (regsT 0 0 0 0 20 0, [(20, 5#32)]) := by decide

/-- V6.1, V6.2. -/
theorem test_compare_value :
    flagsAfter [0x1b#32, 0x0#32, 0x0#32] (procT (regsT 0 0 0 0 0 0) false true []) = some (true, false) ∧
    flagsAfter [0x1b#32, 0x1#32, 0x9#32] (procT (regsT 0 3 0 0 0 0) true false []) = some (false, true) := by decide

/-- V6.3, V6.4. -/
theorem test_compare_value_unsigned :
    flagsAfter [0x1b#32, 0x1#32, 0x3#32] (procT (regsT 0 9 0 0 0 0) true true []) = some (false, false) ∧
    flagsAfter [0x1b#32, 0x1#32, 0x1#32] (procT (regsT 0 0x80000000 0 0 0 0) false false []) = some (false, false) := by decide

/-- V6.5, V6.6. -/
theorem test_compare_register :
    flagsAfter [0x1c#32, 0x1#32, 0x2#32] (procT (regsT 0 3 9 0 0 0) false false []) = some (false, true) ∧
    flagsAfter [0x1c#32, 0x2#32, 0x1#32] (procT (regsT 0 3 9 0 0 0) false false []) = some (false, false) := by decide

/-- V6.7. -/
theorem test_compare_register_same :
    flagsAfter [0x1c#32, 0x5#32, 0x5#32] (procT (regsT 0 0 0 0 0 123) false false []) = some (true, false) := by decide

/-- V6.8: a jump to itself. -/
theorem test_jump :
    (after [0x1d#32, 0x0#32] (procT (regsT 0 0 0 0 0 0) false false [])).map Process.pc = some 0#32 := by decide

/-- V6.10: the process halts and is removed, and the step is counted. -/
theorem test_jump_off_the_stream :
    (stepT [0x1d#32, 0xffffffff#32] (procT (regsT 0 0 0 0 0 0) false false [])).map (fun t => (t.pt, t.halted.map Process.pc, t.qstep)) =
      some ([], [0xffffffff#32], 1) := by decide

/-- V6.11: taken, and zero stays. -/
theorem test_jump_if_equal_taken :
    (after [0x1e#32, 0x1#32] (procT (regsT 0 0 0 0 0 0) true false [])).map (fun q => (q.pc, q.flags.zero)) = some (1#32, true) := by decide

/-- V6.12: falls through, whatever carry is. -/
theorem test_jump_if_equal_not_taken :
    (after [0x1e#32, 0x1#32] (procT (regsT 0 0 0 0 0 0) false true [])).map Process.pc = some 2#32 := by decide

/-! ### Memory, the parameters, the scheduler and the host (V7, V8, P5) -/

/-- add-register under the other reading of U4. -/
theorem test_add_register_writes_carry :
    (nextT (exec (.addRegister 0#32 1#32)
      { runT (procT (regsT 0xffffffff 1 0 0 0 0) false false []) with
        cfg := { Config.default with addRegWritesCarry := true } })).map
      (fun t => t.pt.map (fun q => (q.reg .r0, q.flags.carry))) = some [(0#32, true)] := by decide

/-- Another split constant (D5): 7 * 7 = 4 * 10 + 9. -/
theorem test_mul_split :
    (nextT (exec (.mulValue 7#32)
      { runT (procT (regsT 7 0 0 0 0 0) false false []) with
        cfg := { Config.default with mulSplit := 10 } })).map
      (fun t => t.pt.map (fun q => (q.reg .r0, q.reg .r3))) = some [(9#32, 4#32)] := by decide

/-- A write keeps the list sorted, replaces, and drops a word that becomes 0. -/
theorem test_memory_write :
    Memory.write [(2, 1#32), (9, 1#32)] 5 7#32 = [(2, 1#32), (5, 7#32), (9, 1#32)] ∧
    Memory.write [(2, 1#32), (5, 7#32)] 5 8#32 = [(2, 1#32), (5, 8#32)] ∧
    Memory.write [(2, 1#32), (5, 7#32)] 2 0#32 = [(5, 7#32)] := by decide

/-- A list out of order, or one that lists a word of 0, is not canonical. -/
theorem test_memory_wf : Memory.wf [(2, 1#32), (5, 7#32)] = true ∧
    Memory.wf [(5, 7#32), (2, 1#32)] = false ∧ Memory.wf [(2, 0#32)] = false := by decide

/-- The reset state lists no memory and begins in IDLE. -/
theorem test_reset : State.reset.pt = [] ∧ State.reset.mstate = .idle ∧ State.reset.acause.code = 0 ∧
    State.reset.out = [] := by decide

/-- V7.1, V7.4: a fault on the words at pc; the step is not counted. -/
theorem test_step_faults :
    (nextT (step (runT { moveT with stream := [0x1f#32] }))).map
      (fun t => (t.mstate, t.acause, t.aval, t.qstep, t.pt.length)) =
      some (.aborted, .unknownOpcode, 0x1f#32, 0, 1) ∧
    (nextT (step (runT { moveT with stream := [0x1#32, 0#32] }))).map
      (fun t => (t.acause, t.aval)) = some (.truncatedInstruction, 0x1#32) := by decide

/-- V8.2, first row: a process with an empty stream halts on its first step, which is counted. -/
theorem test_step_not_live :
    (nextT (step { runT (Process.create 0 [] 256 0#32) with
      pt := [Process.create 0 [] 256 0#32, Process.create 1 [0x15#32, 0#32] 256 0#32] })).map
      (fun t => (t.pt.map Process.loadIndex, t.cur, t.qstep)) = some ([1], 0, 1) := by decide

/-- S5, third row: the last process of three halts, and the cursor wraps. -/
theorem test_step_cursor_wraps :
    (nextT (step { runT moveT with
      pt := [Process.create 0 [0x1d#32, 0#32] 256 0#32, Process.create 1 [0x1d#32, 0#32] 256 0#32,
        Process.create 2 [0x1d#32, 2#32] 256 0#32]
      cur := 2 })).map (fun t => (t.pt.map Process.loadIndex, t.cur)) = some ([0, 1], 0) := by decide

/-- V8.3, the last row: with the table empty at the quantum's end the machine stops, it does not yield. -/
theorem test_step_empty_before_quantum :
    (nextT (step { runT moveT with pt := [], qstep := 100000 })).map State.mstate =
      some .stopped := by decide

/-- From reset, through the host's port: a load is taken in IDLE, with the defaults of R148. -/
theorem test_step_load :
    (nextT (step { State.reset with host := [.load [0x0#32]] })).map
      (fun t => (t.pt.map (fun p => (p.stream, p.heapSize, p.uid, p.pc)), t.host)) =
      some ([([0x0#32], 256, 0#32, 0#32)], []) := by decide

/-- An instruction placed in the reset state runs at the next step. -/
theorem test_withFetchWord :
    (nextT (step (State.reset.withFetchWord 96 0x0000000500000001_00000001))).map
      (fun t => t.halted.map (fun p => (p.reg .r1, p.pc))) = some [(5#32, 3#32)] := by decide

/-! ### Witnesses: every obligation with hypotheses has a case that meets them

`pW` is the process of the per-instruction witnesses: `x[1]` holds the last address of its heap, `x[2]` the
first address after it. -/

/-- A process with `x[0]` to `x[5]` at 0, 255, 256, 7, 255, 0x80000000. -/
def pW : Process := procT (regsT 0 255 256 7 255 0x80000000) false false [(255, 9#32)]

/-- `pW` with `x[0]`, `x[1]`, `x[2]` as given. -/
def sysW (a b c : Nat) : Process := procT (regsT a b c 7 0 0) false false [(255, 9#32)]

theorem witness_DecoderRejectsByName :
    decode (0x1f#32 :: []) = .reject (.unknownOpcode 0x1f#32) ∧
    decode (0x1e#32 :: []) = .reject (.truncated 0x1e#32) ∧
    decode (0x1#32 :: [0#32]) = .reject (.truncated 0x1#32) ∧
    decode [] = .reject .noWord := by decide

theorem witness_OperandWordCounts : 0x1 ≤ 0x9 ∧ 0xa ≤ 0xd ∧ 0xe ≤ 0x14 ∧ 0x15 ≤ 0x1a ∧
    nops 0x9 = some 2 ∧ nops 0xa = some 1 ∧ nops 0xd = some 1 ∧ nops 0xe = some 2 ∧
    nops 0x14 = some 2 ∧ nops 0x15 = some 1 ∧ nops 0x1a = some 1 ∧ nops 0x1b = some 2 ∧
    nops 0x1c = some 2 ∧ nops 0x1d = some 1 ∧ nops 0x1e = some 1 ∧ nops 0x1f = none := by decide

/-- The three clauses at their boundaries: lo = hi; hi = HEAP_SIZE; hi = HEAP_SIZE + 1, with lo inside
the heap and beyond it. -/
theorem witness_SyscallWritesText :
    ((runT (sysW 0 5 5)).current = some (sysW 0 5 5) ∧ (sysW 0 5 5).reg .r0 = 0#32 ∧
      ((sysW 0 5 5).reg .r2).toNat ≤ ((sysW 0 5 5).reg .r1).toNat) ∧
    ((runT (sysW 0 255 256)).current = some (sysW 0 255 256) ∧
      ((sysW 0 255 256).reg .r1).toNat < ((sysW 0 255 256).reg .r2).toNat ∧
      ((sysW 0 255 256).reg .r2).toNat ≤ (sysW 0 255 256).heapSize) ∧
    ((runT (sysW 0 255 257)).current = some (sysW 0 255 257) ∧
      ((sysW 0 255 257).reg .r1).toNat < ((sysW 0 255 257).reg .r2).toNat ∧
      (sysW 0 255 257).heapSize < ((sysW 0 255 257).reg .r2).toNat) ∧
    (sysW 0 300 301).heapSize < ((sysW 0 300 301).reg .r2).toNat := by decide

theorem witness_SyscallWritesNumberOrDoesNothing :
    ((runT (sysW 1 0 0)).current = some (sysW 1 0 0) ∧ (sysW 1 0 0).reg .r0 = 1#32) ∧
    ((runT (sysW 2 0 0)).current = some (sysW 2 0 0) ∧ 2 ≤ ((sysW 2 0 0).reg .r0).toNat) ∧
    2 ≤ ((sysW 0xffffffff 0 0).reg .r0).toNat := by decide

/-- A process at the cursor, and the first illegal `reg` operand word. -/
theorem witness_MovesOfValueOrRegisterToRegister :
    (runT pW).current = some pW ∧ 6 ≤ (6#32 : Word).toNat ∧ Reg.r5.word = 5#32 := by decide

/-- The last address in the heap and the first one outside it, as an operand and in a register. -/
theorem witness_LoadsOfRegister :
    (runT pW).current = some pW ∧ 6 ≤ (6#32 : Word).toNat ∧
    (255#32 : Word).toNat < pW.heapSize ∧ pW.heapSize ≤ (256#32 : Word).toNat ∧
    (pW.reg .r1).toNat < pW.heapSize ∧ pW.heapSize ≤ (pW.reg .r2).toNat := by decide

theorem witness_StoresAtImmediateAddress :
    (runT pW).current = some pW ∧ 6 ≤ (6#32 : Word).toNat ∧
    (255#32 : Word).toNat < pW.heapSize ∧ pW.heapSize ≤ (256#32 : Word).toNat := by decide

theorem witness_StoresAtRegisterAddress :
    (runT pW).current = some pW ∧ 6 ≤ (6#32 : Word).toNat ∧
    (pW.reg .r1).toNat < pW.heapSize ∧ pW.heapSize ≤ (pW.reg .r2).toNat := by decide

/-- Both addresses good; the source bad; the source good and the destination bad. -/
theorem witness_MemoryCopiesToImmediateAddress :
    (runT pW).current = some pW ∧ 6 ≤ (6#32 : Word).toNat ∧
    ((255#32 : Word).toNat < pW.heapSize ∧ (0#32 : Word).toNat < pW.heapSize) ∧
    ((0#32 : Word).toNat < pW.heapSize ∧ pW.heapSize ≤ (256#32 : Word).toNat) ∧
    ((pW.reg .r1).toNat < pW.heapSize ∧ pW.heapSize ≤ (pW.reg .r2).toNat) := by decide

theorem witness_MemoryCopiesToRegisterAddress :
    (runT pW).current = some pW ∧ 6 ≤ (6#32 : Word).toNat ∧
    ((pW.reg .r1).toNat < pW.heapSize ∧ (255#32 : Word).toNat < pW.heapSize ∧
      (pW.reg .r4).toNat < pW.heapSize) ∧
    (pW.heapSize ≤ (pW.reg .r2).toNat ∧ pW.heapSize ≤ (256#32 : Word).toNat) := by decide

theorem witness_StoreThenLoadGivesTheWordBack :
    (runT pW).current = some pW ∧ pW.heap.wf = true ∧ (255#32 : Word).toNat < pW.heapSize := by decide

theorem witness_AddValueWrapsAndWritesCarry :
    (runT pW).current = some pW ∧ 6 ≤ (6#32 : Word).toNat := by decide

/-- Both values of the parameter. -/
theorem witness_AddRegisterWrapsAndFollowsTheCarryParameter :
    ((runT pW).current = some pW ∧ (runT pW).cfg.addRegWritesCarry = false) ∧
    (({ runT pW with cfg := ⟨1, 1, true, none⟩ } : State).current = some pW ∧
      ({ runT pW with cfg := ⟨1, 1, true, none⟩ } : State).cfg.addRegWritesCarry = true) ∧
    6 ≤ (6#32 : Word).toNat := by decide

theorem witness_SubtractsWrapAndKeepFlags :
    (runT pW).current = some pW ∧ 6 ≤ (6#32 : Word).toNat := by decide

theorem witness_IncrementsAddOneToTheirTarget :
    (runT pW).current = some pW ∧ 6 ≤ (6#32 : Word).toNat ∧
    (255#32 : Word).toNat < pW.heapSize ∧ pW.heapSize ≤ (256#32 : Word).toNat ∧
    (pW.reg .r1).toNat < pW.heapSize ∧ pW.heapSize ≤ (pW.reg .r2).toNat := by decide

theorem witness_DecrementsSubtractOneFromTheirTarget :
    (runT pW).current = some pW ∧ 6 ≤ (6#32 : Word).toNat ∧
    (255#32 : Word).toNat < pW.heapSize ∧ pW.heapSize ≤ (256#32 : Word).toNat ∧
    (pW.reg .r1).toNat < pW.heapSize ∧ pW.heapSize ≤ (pW.reg .r2).toNat := by decide

theorem witness_MultipliesStoreTheProductInThePair :
    (runT pW).current = some pW ∧ (runT pW).cfg.mulSplit = 2 ^ 32 ∧ 6 ≤ (6#32 : Word).toNat := by decide

/-- A divisor of 1, a register that holds a divisor, and one that holds 0. -/
theorem witness_DividesSplitThePairIntoQuotientAndRemainder :
    (runT pW).current = some pW ∧ (1#32 : Word) ≠ 0#32 ∧ pW.reg .r3 ≠ 0#32 ∧ pW.reg .r0 = 0#32 ∧
    6 ≤ (6#32 : Word).toNat := by decide

theorem witness_MultiplyThenDivideRestores :
    (runT pW).current = some pW ∧ (runT pW).cfg.mulSplit = 2 ^ 32 ∧ (1#32 : Word) ≠ 0#32 := by decide

/-- Each of the three relations, unsigned. -/
theorem witness_ComparesSetZeroAndCarry :
    (runT pW).current = some pW ∧ (pW.reg .r1).toNat = (pW.reg .r4).toNat ∧
    (pW.reg .r1).toNat < (pW.reg .r2).toNat ∧ (pW.reg .r2).toNat < (pW.reg .r5).toNat ∧
    (1#32 : Word).toNat < (pW.reg .r5).toNat ∧ 6 ≤ (6#32 : Word).toNat := by decide

theorem witness_JumpsWriteOnlyThePc :
    ((runT pW).current = some pW ∧ pW.flags.zero = false) ∧
    ((runT (procT (regsT 0 0 0 0 0 0) true false [])).current =
        some (procT (regsT 0 0 0 0 0 0) true false []) ∧
      (procT (regsT 0 0 0 0 0 0) true false []).flags.zero = true) := by decide

theorem witness_RegisterFrame :
    ∃ t p q, exec (.mulValue 3#32) (runT pW) = .next t ∧ (runT pW).current = some p ∧
      t.current = some q ∧ (Instr.mulValue 3#32).writesReg .r1 = false :=
  ⟨_, _, _, rfl, rfl, rfl, by decide⟩

/-- A form that stores, at the last address, and one that does not. -/
theorem witness_HeapFrame :
    (∃ t p q, exec (.movValueToMemAtRegister 1#32 3#32) (runT pW) = .next t ∧
      (runT pW).current = some p ∧ t.current = some q ∧
      (Instr.movValueToMemAtRegister 1#32 3#32).storeLoc = some (.memAt 1#32) ∧
      p.place (.memAt 1#32) = .ok (.cell 255#32) ∧ 254 ≠ (255#32 : Word).toNat) ∧
    (∃ t p q, exec (.compareValue 1#32 3#32) (runT pW) = .next t ∧ (runT pW).current = some p ∧
      t.current = some q ∧ (Instr.compareValue 1#32 3#32).storeLoc = none) :=
  ⟨⟨_, _, _, rfl, rfl, rfl, rfl, rfl, by decide⟩, ⟨_, _, _, rfl, rfl, rfl, rfl⟩⟩

/-- add-register under the default parameter keeps all three flags. -/
theorem witness_FlagFrame :
    ∃ t p q, exec (.addRegister 1#32 2#32) (runT pW) = .next t ∧ (runT pW).current = some p ∧
      t.current = some q ∧ (Instr.addRegister 1#32 2#32).isCompare = false ∧
      (Instr.addRegister 1#32 2#32).writesCarry (runT pW).cfg = false :=
  ⟨_, _, _, rfl, rfl, rfl, rfl, rfl⟩

/-- jump-if-equal with other flags and the same `zero`, and an instruction that reads none. -/
theorem witness_OnlyJumpIfEqualReadsAFlag :
    (∃ t, (runT pW).current = some pW ∧ (⟨false, true, true⟩ : Flags).zero = pW.flags.zero ∧
      exec (.jumpIfEqual 9#32) (runT pW) = .next t) ∧
    (∃ t, (runT pW).current = some pW ∧
      ((∃ target, (Instr.addValue 0#32 1#32) = .jumpIfEqual target) →
        (⟨true, true, true⟩ : Flags).zero = pW.flags.zero) ∧
      exec (.addValue 0#32 1#32) (runT pW) = .next t) :=
  ⟨⟨_, rfl, rfl, rfl⟩, ⟨_, rfl, fun ⟨_, h⟩ => Instr.noConfusion h, rfl⟩⟩

/-- The three clauses: a fault, a taken jump, and any other instruction. -/
theorem witness_ProgramCounterRule :
    (∃ t q, (runT pW).mstate = .run ∧ exec (.incrementRegister 6#32) (runT pW) = .next t ∧
      t.current = some q ∧ t.mstate = .aborted) ∧
    (∃ t q, exec (.jump 9#32) (runT pW) = .next t ∧ t.current = some q ∧ t.mstate ≠ .aborted ∧
      (Instr.jump 9#32).takenTarget pW = some 9#32) ∧
    (∃ t q, exec (.jumpIfEqual 9#32) (runT pW) = .next t ∧ t.current = some q ∧
      t.mstate ≠ .aborted ∧ (Instr.jumpIfEqual 9#32).takenTarget pW = none) :=
  ⟨⟨_, _, rfl, rfl, rfl, rfl⟩, ⟨_, _, rfl, rfl, by decide, rfl⟩, ⟨_, _, rfl, rfl, by decide, rfl⟩⟩

/-- In a table of two, with the second process at the cursor. -/
theorem witness_InstructionsTouchOnlyTheirOwnProcess :
    ∃ t, exec (.incrementRegister 0#32) { runT pW with pt := [moveT, pW], cur := 1 } = .next t ∧
      0 ≠ ({ runT pW with pt := [moveT, pW], cur := 1 } : State).cur ∧
      (Instr.incrementRegister 0#32) ≠ .syscall := ⟨_, rfl, by decide, by decide⟩

/-- The same process in two different machines, for an instruction that runs and for one that faults. -/
theorem witness_InstructionsSeeOnlyTheirOwnProcess :
    ((runT pW).mstate = .run ∧
      ({ runT pW with pt := [moveT, pW], cur := 1, qstep := 5 } : State).mstate = .run ∧
      (runT pW).current = some pW ∧
      ({ runT pW with pt := [moveT, pW], cur := 1, qstep := 5 } : State).current = some pW ∧
      ({ runT pW with pt := [moveT, pW], cur := 1, qstep := 5 } : State).cfg = (runT pW).cfg) ∧
    (∃ t, exec (.incrementRegister 0#32) (runT pW) = .next t) ∧
    (∃ t, exec (.incrementRegister 6#32) (runT pW) = .next t ∧ t.mstate = .aborted) :=
  ⟨by decide, ⟨_, rfl⟩, ⟨_, rfl, rfl⟩⟩

theorem witness_ReadsComeBeforeWrites :
    (runT pW).current = some pW ∧ pW.heap.wf = true ∧ (255#32 : Word).toNat < pW.heapSize ∧
    (runT pW).cfg.mulSplit = 2 ^ 32 ∧ pW.reg .r3 ≠ 0#32 ∧ (sysW 1 0 0).reg .r0 ≠ 0#32 := by decide

/-- Operand word 1 of 6 and operand word 2 of 7: the first is reported; and a well-formed instruction. -/
theorem witness_IllFormedInstructionsRaiseBadRegister :
    ((runT pW).current = some pW ∧
      (Instr.movRegisterToRegister 6#32 7#32).badRegWord? = some 6#32 ∧
      (Instr.movRegisterToRegister 5#32 7#32).badRegWord? = some 7#32) ∧
    (∃ t, (runT pW).acause ≠ .badRegister ∧ (Instr.movRegisterToRegister 5#32 0#32).wellFormed = true ∧
      exec (.movRegisterToRegister 5#32 0#32) (runT pW) = .next t) :=
  ⟨by decide, ⟨_, by decide, by decide, rfl⟩⟩

/-- A running machine whose one process runs these words. -/
def wordsT (ws : List Word) : State := runT { pW with stream := ws }

theorem witness_UnknownOpcodeAbortsTheMachine :
    (wordsT [0x1f#32]).Ready ∧ (wordsT [0x1f#32]).current = some { pW with stream := [0x1f#32] } ∧
    ([0x1f#32] : List Word)[pW.pc.toNat]? = some 0x1f#32 ∧ 0x1e < (0x1f#32 : Word).toNat := by decide

/-- One operand word of two is missing: pc + 2 = LEN. -/
theorem witness_TruncatedInstructionAbortsTheMachine :
    (wordsT [0x1#32, 0#32]).Ready ∧
    (wordsT [0x1#32, 0#32]).current = some { pW with stream := [0x1#32, 0#32] } ∧
    ([0x1#32, 0#32] : List Word)[pW.pc.toNat]? = some 0x1#32 ∧ nops (0x1#32 : Word).toNat = some 2 ∧
    ({ pW with stream := [0x1#32, 0#32] } : Process).len ≤ pW.pc.toNat + 2 := by decide

/-- A step that aborts; and an aborted machine with a call that is no reset. -/
theorem witness_FaultsArePreciseAndTerminal :
    (∃ t, (wordsT [0x15#32, 6#32]).Ready ∧ step (wordsT [0x15#32, 6#32]) = .next t ∧
      t.mstate = .aborted) ∧
    (({ runT pW with mstate := .aborted, host := [.start] } : State).mstate = .aborted ∧
      ∀ rest, ({ runT pW with mstate := .aborted, host := [.start] } : State).host ≠ .reset :: rest) :=
  ⟨⟨_, by decide, rfl, rfl⟩, rfl, fun _ h => by cases h⟩

/-- The three clauses: the instruction faults; the process is live after it; it is not (pc = LEN). -/
theorem witness_StepRunsTheDecodedInstruction :
    (∃ t, (wordsT [0x15#32, 6#32]).Ready ∧
      (wordsT [0x15#32, 6#32]).current = some { pW with stream := [0x15#32, 6#32] } ∧
      decode ({ pW with stream := [0x15#32, 6#32] } : Process).fetchWords =
        .instr (.incrementRegister 6#32) [] ∧
      exec (.incrementRegister 6#32) (wordsT [0x15#32, 6#32]) = .next t ∧ t.mstate = .aborted) ∧
    (∃ t q, (wordsT [0x15#32, 5#32, 0#32]).Ready ∧
      decode ({ pW with stream := [0x15#32, 5#32, 0#32] } : Process).fetchWords =
        .instr (.incrementRegister 5#32) [0#32] ∧
      exec (.incrementRegister 5#32) (wordsT [0x15#32, 5#32, 0#32]) = .next t ∧
      t.mstate ≠ .aborted ∧ t.current = some q ∧ q.pc.toNat < q.len) ∧
    (∃ t q, (wordsT [0x15#32, 5#32]).Ready ∧
      decode ({ pW with stream := [0x15#32, 5#32] } : Process).fetchWords =
        .instr (.incrementRegister 5#32) [] ∧
      exec (.incrementRegister 5#32) (wordsT [0x15#32, 5#32]) = .next t ∧
      t.mstate ≠ .aborted ∧ t.current = some q ∧ q.len ≤ q.pc.toNat) :=
  ⟨⟨_, by decide, rfl, rfl, rfl, rfl⟩, ⟨_, _, by decide, rfl, rfl, by decide, rfl, by decide⟩,
    ⟨_, _, by decide, rfl, rfl, by decide, rfl, by decide⟩⟩

theorem witness_StepOnAProcessThatIsNotLive :
    (wordsT []).Ready ∧ (wordsT []).current = some { pW with stream := [] } ∧
    ({ pW with stream := [] } : Process).len ≤ pW.pc.toNat := by decide

/-- Running with an empty table, at the quantum's end too; started with an empty table; stopped. -/
theorem witness_EmptyTableStopsTheMachine :
    (({ runT pW with pt := [], qstep := 100000 } : State).mstate = .run ∧
      ({ runT pW with pt := [], qstep := 100000 } : State).dueCall = none) ∧
    (({ State.reset with host := [.start] } : State).mstate = .idle ∧
      ({ State.reset with host := [.start] } : State).pt = []) ∧
    (({ State.reset with mstate := .stopped, host := [.resume] } : State).mstate = .stopped ∧
      ∀ rest, ({ State.reset with mstate := .stopped, host := [.resume] } : State).host ≠
        .reset :: rest) :=
  ⟨by decide, by decide, rfl, fun _ h => by cases h⟩

/-- QSTEP = QUANTUM, without and with the host's resume to come. -/
theorem witness_QuantumBoundaryYieldsAndResumes :
    (({ runT pW with qstep := 100000 } : State).mstate = .run ∧
      ({ runT pW with qstep := 100000 } : State).dueCall = none ∧
      ({ runT pW with qstep := 100000 } : State).pt ≠ [] ∧
      ({ runT pW with qstep := 100000 } : State).qstep =
        ({ runT pW with qstep := 100000 } : State).cfg.quantum) ∧
    ({ runT pW with qstep := 100000, host := [.resume] } : State).host = .resume :: [] := by decide

theorem witness_ResumeIsTakenInYieldOnly :
    (({ runT pW with mstate := .yield } : State).mstate = .yield ∧
      ({ runT pW with mstate := .yield } : State).dueCall = none) ∧
    ({ runT pW with mstate := .yield, host := [.resume] } : State).host = .resume :: [] ∧
    (∃ t, ({ runT pW with host := [.resume] } : State).mstate ≠ .yield ∧
      step { runT pW with host := [.resume] } = .next t) :=
  ⟨by decide, rfl, ⟨_, by decide, rfl⟩⟩

theorem witness_StartIsTakenInIdleOnly :
    (({ State.reset with host := [.start] } : State).host = .start :: [] ∧
      ({ State.reset with host := [.start] } : State).mstate = .idle) ∧
    (({ runT pW with host := [.start] } : State).host = .start :: [] ∧
      ({ runT pW with host := [.start] } : State).mstate ≠ .idle) ∧
    (∃ t, (wordsT [0x0#32]).mstate ≠ .idle ∧ step (wordsT [0x0#32]) = .next t) :=
  ⟨by decide, by decide, ⟨_, by decide, rfl⟩⟩

/-- The bounds are reached: HEAP_SIZE = 2^32, LEN = 2^32 - 1, and the last place of a bounded table; and
a load outside IDLE. -/
theorem witness_LoadAppendsAFreshProcess :
    (State.reset.mstate = .idle ∧
      (List.replicate (2 ^ 32 - 1) (0#32 : Word)).length ≤ 2 ^ 32 - 1 ∧ 2 ^ 32 ≤ 2 ^ 32 ∧
      (∀ n, ({ State.reset with cfg := ⟨1, 1, false, some 1⟩ } : State).cfg.nprocMax = some n →
        State.reset.pt.length < n) ∧ (∀ n, State.reset.cfg.nprocMax = some n → State.reset.pt.length < n)) ∧
    (({ runT pW with host := [.load []] } : State).mstate ≠ .idle ∧
      ({ runT pW with host := [.load []] } : State).host = .load [] :: []) :=
  ⟨⟨rfl, by rw [List.length_replicate], Nat.le_refl _, fun n h => by cases h; decide,
    fun n h => by cases h⟩, by decide⟩

/-- Each of the three bounds, passed by one. -/
theorem witness_LoadOutOfBoundsChangesNothing :
    ({ State.reset with host := [.load [] (2 ^ 32 + 1) 0#32] } : State).mstate = .idle ∧
    2 ^ 32 < 2 ^ 32 + 1 ∧ 2 ^ 32 - 1 < (List.replicate (2 ^ 32) (0#32 : Word)).length ∧
    (∃ n, ({ runT pW with mstate := .idle, cfg := ⟨1, 1, false, some 1⟩ } : State).cfg.nprocMax = some n ∧
      n ≤ ({ runT pW with mstate := .idle, cfg := ⟨1, 1, false, some 1⟩ } : State).pt.length) :=
  ⟨rfl, by decide, by rw [List.length_replicate]; decide, 1, rfl, by decide⟩

theorem witness_ResetInAnyStateLeavesNothing :
    ({ runT pW with host := [.reset], mstate := .aborted } : State).host = .reset :: [] := by decide

/-- A step that keeps the table and one that removes the process at the cursor. -/
theorem witness_TheTableIsNeverReordered :
    (∃ t, (wordsT [0x0#32, 0#32]).dueCall = none ∧ step (wordsT [0x0#32, 0#32]) = .next t ∧
      t.pt.length = 1) ∧
    (∃ t, (wordsT [0x0#32]).dueCall = none ∧ step (wordsT [0x0#32]) = .next t ∧ t.pt = []) :=
  ⟨⟨_, by decide, rfl, rfl⟩, ⟨_, by decide, rfl, rfl⟩⟩

/-- A step that emits an event. -/
theorem witness_OutputIsAppendOnly :
    (∀ rest, (wordsT [0x0#32]).host ≠ .reset :: rest) ∧
    ∃ t, step (wordsT [0x0#32]) = .next t ∧ t.out ≠ (wordsT [0x0#32]).out :=
  ⟨fun _ h => (by cases h), _, rfl, by decide⟩

/-- A running machine with a process that loops and one with an empty stream. -/
def invT : State :=
  { runT pW with
    pt := [Process.create 0 [0x1d#32, 0#32] 256 0#32, Process.create 1 [] 256 0#32], qstep := 99999 }

theorem invT_inv : invT.Inv where
  cfg_valid := by decide
  pt_wf := by decide
  pt_tabled := by decide
  pt_order := by decide
  pt_capacity := fun _ h => by cases h
  cursor := by decide
  qstep_le := by decide
  no_cause := by decide
  abort_cause := by decide
  idle := by decide
  yield := by decide
  stopped := by decide
  halted_dead := by decide

theorem witness_TheQuantumBoundsTheBatch :
    invT.Inv ∧ invT.mstate = .run ∧ invT.host = [] := ⟨invT_inv, rfl, rfl⟩

theorem witness_TheQuantumDoesNotAffectExecution :
    ∃ t, invT.Ready ∧ invT.qstep ≠ 1 ∧ step invT = .next t := ⟨_, by decide, by decide, rfl⟩

/-- S4: three processes that run `jump(0)`, from the middle one on. -/
def fairT : State :=
  { runT pW with
    pt := [Process.create 0 [0x1d#32, 0#32] 256 0#32, Process.create 1 [0x1d#32, 0#32] 256 0#32,
      Process.create 2 [0x1d#32, 0#32] 256 0#32]
    cur := 1 }

theorem witness_RoundRobinFairness :
    fairT.mstate = .run ∧ fairT.host = [] ∧ fairT.pt.length = 3 ∧ fairT.cur < 3 ∧
    fairT.qstep + 3 ≤ fairT.cfg.quantum ∧
    (∀ k p, fairT.pt[k]? = some p →
      ∃ i rest u q, decode p.fetchWords = .instr i rest ∧ exec i { fairT with cur := k } = .next u ∧
        u.mstate = .run ∧ u.current = some q ∧ q.live = true) ∧ 3 ≤ 3 := by
  refine ⟨rfl, rfl, rfl, by decide, by decide, fun k p h => ?_, Nat.le_refl _⟩
  match k, h with
  | 0, h => cases h; exact ⟨.jump 0#32, [], _, _, rfl, rfl, rfl, rfl, by decide⟩
  | 1, h => cases h; exact ⟨.jump 0#32, [], _, _, rfl, rfl, rfl, rfl, by decide⟩
  | 2, h => cases h; exact ⟨.jump 0#32, [], _, _, rfl, rfl, rfl, rfl, by decide⟩

theorem witness_EveryStepKeepsTheInvariant : ∃ t, invT.Inv ∧ step invT = .next t :=
  ⟨_, invT_inv, rfl⟩

theorem witness_EveryStepOfASoundStateAnswersNext : invT.Inv := invT_inv

end Sys2Proof.Tests
end

/-! PROOFS. Where pc stands after an instruction (R13, R14): first for each shared operation, then for
every instruction's rule, then for `exec`. -/

namespace Sys2Proof.Machine

/-! ### The shared operations -/

theorem Process.copyWord_pc {dst : Loc} {src : Source} {p q : Process}
    (h : Process.copyWord dst src p = .ok q) : q.pc = p.pc + 3#32 := by
  obtain ⟨pl, v, q', -, hput, rfl⟩ := Process.copyWord_ok h
  obtain ⟨-, hpc, -⟩ := Process.putPlace_keeps hput
  simp [hpc]

theorem Process.combine_pc {w : RegWord} {src : Source} {f : Word → Word → Word}
    {g : Flags → Word → Word → Flags} {p q : Process} (h : Process.combine w src f g p = .ok q) :
    q.pc = p.pc + 3#32 := by
  obtain ⟨r, b, -, rfl⟩ := Process.combine_ok h
  simp

theorem Process.compareWith_pc {w : RegWord} {src : Source} {p q : Process}
    (h : Process.compareWith w src p = .ok q) : q.pc = p.pc + 3#32 := by
  obtain ⟨r, b, -, rfl⟩ := Process.compareWith_ok h
  simp

theorem Process.modifyWord_pc {l : Loc} {f : Word → Word} {p q : Process}
    (h : Process.modifyWord l f p = .ok q) : q.pc = p.pc + 2#32 := by
  obtain ⟨pl, v, q', -, -, hput, rfl⟩ := Process.modifyWord_ok h
  obtain ⟨-, hpc, -⟩ := Process.putPlace_keeps hput
  simp [hpc]

@[simp] theorem Process.setPair_pc (p : Process) (r : Word × Word) :
    (p.setPair r).pc = p.pc + 2#32 := rfl

theorem Process.multiplyBy_pc {k : Nat} {src : Source} {p q : Process}
    (h : Process.multiplyBy k src p = .ok q) : q.pc = p.pc + 2#32 := by
  obtain ⟨b, rfl⟩ := Process.multiplyBy_ok h
  exact p.setPair_pc _

theorem Process.divideBy_pc {k : Nat} {op : Word} {src : Source} {p q : Process}
    (h : Process.divideBy k op src p = .ok q) : q.pc = p.pc + 2#32 := by
  obtain ⟨v, -, rfl⟩ := Process.divideBy_ok h
  exact p.setPair_pc _

/-! ### Every instruction -/

/-- R14 on one process: a rule that answers leaves pc at the target of a taken jump, and else past the
instruction's words. -/
theorem ruleOf_pc {c : Config} {i : Instr} {p q : Process} {es : List Event}
    (h : ruleOf c i p = .ok (q, es)) :
    q.pc = (i.takenTarget p).getD (p.pc + BitVec.ofNat 32 (encode i).length) := by
  cases i with
  | syscall =>
    obtain ⟨rfl, -⟩ := ruleOf_syscall_ok h
    rfl
  | movValueToRegister | movRegisterToRegister | movMemoryToRegister | movValueToMemory
  | movRegisterToMemory | movValueToMemAtRegister | movRegisterToMemAtRegister | movMemToMem
  | movMemToMemAtRegister | movMemAtRegisterToRegister | movMemAtRegisterToMem
  | movMemAtRegisterToMemAtRegister =>
    rw [ruleOf] at h
    exact Process.copyWord_pc (quiet_ok h).1
  | addValue | addRegister | subValue | subRegister =>
    rw [ruleOf] at h
    exact Process.combine_pc (quiet_ok h).1
  | mulValue | mulRegister =>
    rw [ruleOf] at h
    exact Process.multiplyBy_pc (quiet_ok h).1
  | divValue | divRegister =>
    rw [ruleOf] at h
    exact Process.divideBy_pc (quiet_ok h).1
  | incrementRegister | incrementMemory | incrementMemoryAtRegister
  | decrementRegister | decrementMemory | decrementMemoryAtRegister =>
    rw [ruleOf] at h
    exact Process.modifyWord_pc (quiet_ok h).1
  | compareValue | compareRegister =>
    rw [ruleOf] at h
    exact Process.compareWith_pc (quiet_ok h).1
  | jump target =>
    cases h
    rfl
  | jumpIfEqual target =>
    cases h
    by_cases hz : p.flags.zero <;> simp [Instr.takenTarget, hz, encode, Instr.operands]

/-- Settles O28: a raise leaves the process and puts the machine in ABORTED, which is not RUN; otherwise
the instruction's rule has answered, and `ruleOf_pc` says where its pc is. -/
theorem programCounterRule : Obligations.ProgramCounterRule := by
  unfold Obligations.ProgramCounterRule
  intro i s t p q hrun hexec hp hq
  obtain ⟨p', hp', ⟨q', es, hrule, rfl⟩ | ⟨r, -, rfl⟩⟩ := exec_next hexec
  all_goals obtain rfl : p = p' := Option.some.inj (hp.symm.trans hp')
  · rw [State.current_console, State.current_setCurrent hp] at hq
    cases hq
    have hpc := ruleOf_pc hrule
    refine ⟨fun habort => ?_, fun _ target htaken => ?_, fun _ hnone => ?_⟩
    · simp [hrun] at habort
    · simpa [htaken] using hpc
    · simpa [hnone] using hpc
  · rw [State.current_raise, hp] at hq
    cases hq
    exact ⟨fun _ => rfl, fun hne => absurd rfl hne, fun hne => absurd rfl hne⟩

end Sys2Proof.Machine

/-! PROOFS. The operand words of every instruction, counted by the opcode (R50, R53). -/

namespace Sys2Proof

/-- `NOPS` of an instruction's opcode counts its operand words: none, then the instructions with one,
then those with two. -/
theorem nops_opcode (i : Instr) : nops i.opcode.toNat = some i.operands.length := by
  cases i with
  | syscall => rfl
  | mulValue | mulRegister | divValue | divRegister
  | incrementRegister | incrementMemory | incrementMemoryAtRegister
  | decrementRegister | decrementMemory | decrementMemoryAtRegister
  | jump | jumpIfEqual => rfl
  | movValueToRegister | movRegisterToRegister | movMemoryToRegister | movValueToMemory
  | movRegisterToMemory | movValueToMemAtRegister | movRegisterToMemAtRegister | movMemToMem
  | movMemToMemAtRegister | movMemAtRegisterToRegister | movMemAtRegisterToMem
  | movMemAtRegisterToMemAtRegister
  | addValue | addRegister | subValue | subRegister
  | compareValue | compareRegister => rfl

@[simp] theorem encode_tail (i : Instr) : (encode i).tail = i.operands := rfl

/-- Settles O3: the bounds of a range decide each test of `nops`, and what follows an instruction's opcode
word are its operand words, which `nops_opcode` counts. -/
theorem operandWordCounts : Obligations.OperandWordCounts := by
  unfold Obligations.OperandWordCounts
  refine ⟨rfl, ?_, ?_, ?_, ?_, ?_, ?_, fun i => ?_⟩
  case refine_7 => rw [nops_opcode, encode_tail]
  all_goals
    intro op hlo hhi
    simp (disch := omega) only [nops, if_neg, if_pos]

end Sys2Proof

/-! PROOFS. The syscall dispatcher, call by call, and what `exec` makes of its answer (R70 to R73). -/

namespace Sys2Proof.Machine

theorem Process.dispatchCall_number {p : Process} (h : p.reg .r0 = 1#32) :
    p.dispatchCall = .ok [.number (p.reg .r1)] := by
  simp [Process.dispatchCall, Process.writeNumber, h]

theorem Process.dispatchCall_noop {p : Process} (h : 2 ≤ (p.reg .r0).toNat) :
    p.dispatchCall = .ok [] := by
  unfold Process.dispatchCall
  split
  · omega
  · omega
  · rfl

/-- The events the dispatcher answers are emitted, and pc passes the opcode word (R70). -/
theorem exec_syscall_of_dispatchCall_ok {s : State} {p : Process} {es : List Event}
    (hp : s.current = some p) (hcall : p.dispatchCall = .ok es) :
    exec .syscall s = .next ((s.setCurrent { p with pc := p.pc + 1#32 }).console es) := by
  have hrule : ruleOf s.cfg .syscall p = .ok (p.advance 0, es) := by simp [ruleOf, hcall]
  have hpc : p.advance 0 = { p with pc := p.pc + 1#32 } := rfl
  rw [exec_of_current hp, hrule, hpc]

/-- Settles O6: the dispatcher answers one number event for call 1 and no event for the calls above it,
and emitting no event leaves OUT as it was. -/
theorem syscallWritesNumberOrDoesNothing : Obligations.SyscallWritesNumberOrDoesNothing := by
  unfold Obligations.SyscallWritesNumberOrDoesNothing
  refine ⟨fun s p hp hcall => ?number, fun s p hp hcall => ?noop⟩
  case number => exact exec_syscall_of_dispatchCall_ok hp (Process.dispatchCall_number hcall)
  case noop =>
    rw [exec_syscall_of_dispatchCall_ok hp (Process.dispatchCall_noop hcall), State.console_nil]

end Sys2Proof.Machine

/-! PROOFS. The twelve moves (R80 to R92). Each copies one word from a source to a place, so what a move
does is said once, for the copy, in five cases in the order of its checks (R94): the destination's register
word is bad, the source cannot be read, the destination address is bad, a register is written, a heap word
is written. A statement about a move then only names its case. -/

namespace Sys2Proof.Machine

/-! ### Reading a source -/

/-- Check the register word of a source, then read it: the two phases that a copy takes of its source, as
one. -/
def Process.sourceWord (src : Source) (p : Process) : Except Raise Word :=
  p.datum src >>= p.getDatum

/-- A copy checks its destination's register word, reads its source, and writes. -/
theorem Process.copyWord_eq (dst : Loc) (src : Source) (p : Process) :
    Process.copyWord dst src p = (do
      let d ← p.place dst
      let v ← p.sourceWord src
      let q ← p.putPlace d v
      return q.advance 2) := by
  simp [Process.copyWord, Process.sourceWord]

@[simp] theorem Process.sourceWord_value (p : Process) (v : Value) :
    p.sourceWord (.value v) = .ok v := rfl

/-- Reading a location is reading the place that it names. -/
theorem Process.sourceWord_loc {p : Process} {l : Loc} {pl : Place} (h : p.place l = .ok pl) :
    p.sourceWord (.loc l) = p.getPlace pl := by
  simp [Process.sourceWord, Process.datum_loc, h]

@[simp] theorem Process.sourceWord_reg (p : Process) (r : Reg) :
    p.sourceWord (.loc (.reg r.word)) = .ok (p.reg r) :=
  Process.sourceWord_loc (p.place_reg r)

theorem Process.sourceWord_cell {p : Process} {l : Loc} {a : Word} (h : p.place l = .ok (.cell a))
    (ha : a.toNat < p.heapSize) : p.sourceWord (.loc l) = .ok (p.heapWord a.toNat) := by
  rw [Process.sourceWord_loc h, Process.getPlace_cell, Process.memRead_ok ha]

theorem Process.sourceWord_cell_bad {p : Process} {l : Loc} {a : Word}
    (h : p.place l = .ok (.cell a)) (ha : p.heapSize ≤ a.toNat) :
    p.sourceWord (.loc l) = .error ⟨.heapBounds, a⟩ := by
  rw [Process.sourceWord_loc h, Process.getPlace_cell, Process.memRead_bad ha]

theorem Process.sourceWord_loc_bad {p : Process} {l : Loc} {e : Raise} (h : p.place l = .error e) :
    p.sourceWord (.loc l) = .error e := by
  simp [Process.sourceWord, Process.datum_loc, h]

/-! ### A rule without output, performed -/

theorem exec_of_rule_ok {i : Instr} {s : State} {p q : Process} {f : Process → Except Raise Process}
    (hi : ruleOf s.cfg i = quiet f) (hp : s.current = some p) (hf : f p = .ok q) :
    exec i s = .next (s.setCurrent q) := by
  rw [exec_eq_ruleOf, hi, State.performEmitting_quiet, State.perform_ok hp hf]

theorem exec_of_rule_error {i : Instr} {s : State} {p : Process} {c : Cause} {info : Word}
    {f : Process → Except Raise Process} (hi : ruleOf s.cfg i = quiet f) (hp : s.current = some p)
    (hf : f p = .error ⟨c, info⟩) : exec i s = .next (s.abortedBy c info) := by
  rw [exec_eq_ruleOf, hi, State.performEmitting_quiet, State.perform_error hp hf]
  rfl

/-! ### A copy, case by case -/

section
variable {i : Instr} {s : State} {p : Process} {dst : Loc} {src : Source}

theorem exec_copy_bad_destination {c : Cause} {info : Word}
    (hi : ruleOf s.cfg i = quiet (Process.copyWord dst src)) (hp : s.current = some p)
    (hd : p.place dst = .error ⟨c, info⟩) : exec i s = .next (s.abortedBy c info) :=
  exec_of_rule_error hi hp (by simp [Process.copyWord_eq, hd])

theorem exec_copy_bad_source {c : Cause} {info : Word} {d : Place}
    (hi : ruleOf s.cfg i = quiet (Process.copyWord dst src)) (hp : s.current = some p)
    (hd : p.place dst = .ok d) (hv : p.sourceWord src = .error ⟨c, info⟩) :
    exec i s = .next (s.abortedBy c info) :=
  exec_of_rule_error hi hp (by simp [Process.copyWord_eq, hd, hv])

theorem exec_copy_bad_address {a v : Word}
    (hi : ruleOf s.cfg i = quiet (Process.copyWord dst src)) (hp : s.current = some p)
    (hd : p.place dst = .ok (.cell a)) (hv : p.sourceWord src = .ok v)
    (ha : p.heapSize ≤ a.toNat) : exec i s = .next (s.abortedBy .heapBounds a) :=
  exec_of_rule_error hi hp (by simp [Process.copyWord_eq, hd, hv, Process.memWrite_bad v ha])

theorem exec_copy_to_register {r : Reg} {v : Word}
    (hi : ruleOf s.cfg i = quiet (Process.copyWord (.reg r.word) src)) (hp : s.current = some p)
    (hv : p.sourceWord src = .ok v) :
    exec i s = .next (s.setCurrent { p with regs := p.regs.set r v, pc := p.pc + 3#32 }) := by
  have hcopy : Process.copyWord (.reg r.word) src p = .ok ((p.setReg r v).advance 2) := by
    simp [Process.copyWord_eq, hv]
  exact exec_of_rule_ok hi hp hcopy

theorem exec_copy_to_cell {a v : Word}
    (hi : ruleOf s.cfg i = quiet (Process.copyWord dst src)) (hp : s.current = some p)
    (hd : p.place dst = .ok (.cell a)) (hv : p.sourceWord src = .ok v)
    (ha : a.toNat < p.heapSize) :
    exec i s =
      .next (s.setCurrent { p with heap := p.heap.write a.toNat v, pc := p.pc + 3#32 }) := by
  have hcopy : Process.copyWord dst src p =
      .ok (({ p with heap := p.heap.write a.toNat v } : Process).advance 2) := by
    simp [Process.copyWord_eq, hd, hv, Process.memWrite_ok v ha]
  exact exec_of_rule_ok hi hp hcopy

end

/-! ### The statements -/

/-- Settles O7: a copy to a register, from an immediate or from another register. -/
theorem movesOfValueOrRegisterToRegister : Obligations.MovesOfValueOrRegisterToRegister := by
  unfold Obligations.MovesOfValueOrRegisterToRegister
  refine ⟨⟨fun _ _ => rfl, fun s p r v hp => ?value, fun s p w v hp hw => ?valueBadReg⟩,
    fun _ _ => rfl, fun s p r r' hp => ?register, fun s p w1 w2 hp hw => ?registerBadDst,
    fun s p r w2 hp hw => ?registerBadSrc⟩
  case value => exact exec_copy_to_register rfl hp (p.sourceWord_value v)
  case valueBadReg => exact exec_copy_bad_destination rfl hp (p.place_reg_bad hw)
  case register => exact exec_copy_to_register rfl hp (p.sourceWord_reg r')
  case registerBadDst => exact exec_copy_bad_destination rfl hp (p.place_reg_bad hw)
  case registerBadSrc =>
    exact exec_copy_bad_source rfl hp (p.place_reg r)
      (Process.sourceWord_loc_bad (p.place_reg_bad hw))

/-- Settles O8: a copy to a register from the heap, at an immediate address or at the one in a
register. -/
theorem loadsOfRegister : Obligations.LoadsOfRegister := by
  unfold Obligations.LoadsOfRegister
  refine ⟨⟨fun _ _ => rfl, fun s p r a hp ha => ?mem, fun s p w a hp hw => ?memBadReg,
      fun s p r a hp ha => ?memBadAddr⟩,
    fun _ _ => rfl, fun s p r r' hp ha => ?memAt, fun s p w1 w2 hp hw => ?memAtBadDst,
    fun s p r w2 hp hw => ?memAtBadSrc, fun s p r r' hp ha => ?memAtBadAddr⟩
  case mem => exact exec_copy_to_register rfl hp (Process.sourceWord_cell (p.place_mem a) ha)
  case memBadReg => exact exec_copy_bad_destination rfl hp (p.place_reg_bad hw)
  case memBadAddr =>
    exact exec_copy_bad_source rfl hp (p.place_reg r)
      (Process.sourceWord_cell_bad (p.place_mem a) ha)
  case memAt => exact exec_copy_to_register rfl hp (Process.sourceWord_cell (p.place_memAt r') ha)
  case memAtBadDst => exact exec_copy_bad_destination rfl hp (p.place_reg_bad hw)
  case memAtBadSrc =>
    exact exec_copy_bad_source rfl hp (p.place_reg r)
      (Process.sourceWord_loc_bad (p.place_memAt_bad hw))
  case memAtBadAddr =>
    exact exec_copy_bad_source rfl hp (p.place_reg r)
      (Process.sourceWord_cell_bad (p.place_memAt r') ha)

/-- Settles O9: a copy to an immediate address, from an immediate or from a register. -/
theorem storesAtImmediateAddress : Obligations.StoresAtImmediateAddress := by
  unfold Obligations.StoresAtImmediateAddress
  refine ⟨⟨fun _ _ => rfl, fun s p a v hp ha => ?value, fun s p a v hp ha => ?valueBadAddr⟩,
    fun _ _ => rfl, fun s p a r hp ha => ?register, fun s p a w hp hw => ?registerBadSrc,
    fun s p a r hp ha => ?registerBadAddr⟩
  case value => exact exec_copy_to_cell rfl hp (p.place_mem a) (p.sourceWord_value v) ha
  case valueBadAddr => exact exec_copy_bad_address rfl hp (p.place_mem a) (p.sourceWord_value v) ha
  case register => exact exec_copy_to_cell rfl hp (p.place_mem a) (p.sourceWord_reg r) ha
  case registerBadSrc =>
    exact exec_copy_bad_source rfl hp (p.place_mem a)
      (Process.sourceWord_loc_bad (p.place_reg_bad hw))
  case registerBadAddr => exact exec_copy_bad_address rfl hp (p.place_mem a) (p.sourceWord_reg r) ha

/-- Settles O10: a copy to the address in a register, from an immediate or from a register. -/
theorem storesAtRegisterAddress : Obligations.StoresAtRegisterAddress := by
  unfold Obligations.StoresAtRegisterAddress
  refine ⟨⟨fun _ _ => rfl, fun s p r v hp ha => ?value, fun s p w v hp hw => ?valueBadDst,
      fun s p r v hp ha => ?valueBadAddr⟩,
    fun _ _ => rfl, fun s p r r' hp ha => ?register, fun s p w1 w2 hp hw => ?registerBadDst,
    fun s p r w2 hp hw => ?registerBadSrc, fun s p r r' hp ha => ?registerBadAddr⟩
  case value => exact exec_copy_to_cell rfl hp (p.place_memAt r) (p.sourceWord_value v) ha
  case valueBadDst => exact exec_copy_bad_destination rfl hp (p.place_memAt_bad hw)
  case valueBadAddr =>
    exact exec_copy_bad_address rfl hp (p.place_memAt r) (p.sourceWord_value v) ha
  case register => exact exec_copy_to_cell rfl hp (p.place_memAt r) (p.sourceWord_reg r') ha
  case registerBadDst => exact exec_copy_bad_destination rfl hp (p.place_memAt_bad hw)
  case registerBadSrc =>
    exact exec_copy_bad_source rfl hp (p.place_memAt r)
      (Process.sourceWord_loc_bad (p.place_reg_bad hw))
  case registerBadAddr =>
    exact exec_copy_bad_address rfl hp (p.place_memAt r) (p.sourceWord_reg r') ha

/-- Settles O11: a copy to an immediate address from the heap. The source is read before the destination
is written, so its address is the one reported when both are bad. -/
theorem memoryCopiesToImmediateAddress : Obligations.MemoryCopiesToImmediateAddress := by
  unfold Obligations.MemoryCopiesToImmediateAddress
  refine ⟨⟨fun _ _ => rfl, fun s p a b hp ha hb => ?mem, fun s p a b hp hb => ?memBadSrcAddr,
      fun s p a b hp hb ha => ?memBadDstAddr⟩,
    fun _ _ => rfl, fun s p a r hp ha hb => ?memAt, fun s p a w hp hw => ?memAtBadSrc,
    fun s p a r hp hb => ?memAtBadSrcAddr, fun s p a r hp hb ha => ?memAtBadDstAddr⟩
  case mem =>
    exact exec_copy_to_cell rfl hp (p.place_mem a) (Process.sourceWord_cell (p.place_mem b) hb) ha
  case memBadSrcAddr =>
    exact exec_copy_bad_source rfl hp (p.place_mem a)
      (Process.sourceWord_cell_bad (p.place_mem b) hb)
  case memBadDstAddr =>
    exact exec_copy_bad_address rfl hp (p.place_mem a)
      (Process.sourceWord_cell (p.place_mem b) hb) ha
  case memAt =>
    exact exec_copy_to_cell rfl hp (p.place_mem a) (Process.sourceWord_cell (p.place_memAt r) hb) ha
  case memAtBadSrc =>
    exact exec_copy_bad_source rfl hp (p.place_mem a)
      (Process.sourceWord_loc_bad (p.place_memAt_bad hw))
  case memAtBadSrcAddr =>
    exact exec_copy_bad_source rfl hp (p.place_mem a)
      (Process.sourceWord_cell_bad (p.place_memAt r) hb)
  case memAtBadDstAddr =>
    exact exec_copy_bad_address rfl hp (p.place_mem a)
      (Process.sourceWord_cell (p.place_memAt r) hb) ha

/-- Settles O12: a copy to the address in a register from the heap. Both register words are checked, then
the source is read, then the destination is written. -/
theorem memoryCopiesToRegisterAddress : Obligations.MemoryCopiesToRegisterAddress := by
  unfold Obligations.MemoryCopiesToRegisterAddress
  refine ⟨⟨fun _ _ => rfl, fun s p r b hp ha hb => ?mem, fun s p w b hp hw => ?memBadDst,
      fun s p r b hp hb => ?memBadSrcAddr, fun s p r b hp hb ha => ?memBadDstAddr⟩,
    fun _ _ => rfl, fun s p r r' hp ha hb => ?memAt, fun s p w1 w2 hp hw => ?memAtBadDst,
    fun s p r w2 hp hw => ?memAtBadSrc, fun s p r r' hp hb => ?memAtBadSrcAddr,
    fun s p r r' hp hb ha => ?memAtBadDstAddr⟩
  case mem =>
    exact exec_copy_to_cell rfl hp (p.place_memAt r) (Process.sourceWord_cell (p.place_mem b) hb) ha
  case memBadDst => exact exec_copy_bad_destination rfl hp (p.place_memAt_bad hw)
  case memBadSrcAddr =>
    exact exec_copy_bad_source rfl hp (p.place_memAt r)
      (Process.sourceWord_cell_bad (p.place_mem b) hb)
  case memBadDstAddr =>
    exact exec_copy_bad_address rfl hp (p.place_memAt r)
      (Process.sourceWord_cell (p.place_mem b) hb) ha
  case memAt =>
    exact exec_copy_to_cell rfl hp (p.place_memAt r)
      (Process.sourceWord_cell (p.place_memAt r') hb) ha
  case memAtBadDst => exact exec_copy_bad_destination rfl hp (p.place_memAt_bad hw)
  case memAtBadSrc =>
    exact exec_copy_bad_source rfl hp (p.place_memAt r)
      (Process.sourceWord_loc_bad (p.place_memAt_bad hw))
  case memAtBadSrcAddr =>
    exact exec_copy_bad_source rfl hp (p.place_memAt r)
      (Process.sourceWord_cell_bad (p.place_memAt r') hb)
  case memAtBadDstAddr =>
    exact exec_copy_bad_address rfl hp (p.place_memAt r)
      (Process.sourceWord_cell (p.place_memAt r') hb) ha

end Sys2Proof.Machine

/-! PROOFS. Add and subtract (R100 to R104). Each combines a register with a source, so what they do is said
once, in three cases in the order of the checks: the register word is bad, the source cannot be read, the
register and the flags are written. -/

namespace Sys2Proof.Machine

/-! ### A combination, case by case -/

/-- A combination checks its register word, reads its source, and writes the register and the flags. -/
theorem Process.combine_eq (w : RegWord) (src : Source) (f : Word → Word → Word)
    (g : Flags → Word → Word → Flags) (p : Process) :
    Process.combine w src f g p = (do
      let r ← regOperand w
      let b ← p.sourceWord src
      return ((p.setReg r (f (p.reg r) b)).setFlags (g p.flags (p.reg r) b)).advance 2) := by
  simp [Process.combine, Process.sourceWord]

section
variable {i : Instr} {s : State} {p : Process} {w : RegWord} {r : Reg} {src : Source}
  {f : Word → Word → Word} {g : Flags → Word → Word → Flags}

theorem exec_combine_bad_register (hi : ruleOf s.cfg i = quiet (Process.combine w src f g))
    (hp : s.current = some p) (hw : 6 ≤ w.toNat) : exec i s = .next (s.abortedBy .badRegister w) :=
  exec_of_rule_error hi hp (by simp [Process.combine_eq, regOperand_bad hw])

theorem exec_combine_bad_source {c : Cause} {info : Word}
    (hi : ruleOf s.cfg i = quiet (Process.combine r.word src f g)) (hp : s.current = some p)
    (hb : p.sourceWord src = .error ⟨c, info⟩) : exec i s = .next (s.abortedBy c info) :=
  exec_of_rule_error hi hp (by simp [Process.combine_eq, hb])

theorem exec_combine {b : Word}
    (hi : ruleOf s.cfg i = quiet (Process.combine r.word src f g)) (hp : s.current = some p)
    (hb : p.sourceWord src = .ok b) :
    exec i s = .next (s.setCurrent { p with
      regs := p.regs.set r (f (p.reg r) b)
      flags := g p.flags (p.reg r) b
      pc := p.pc + 3#32 }) := by
  have hcombine : Process.combine r.word src f g p =
      .ok (((p.setReg r (f (p.reg r) b)).setFlags (g p.flags (p.reg r) b)).advance 2) := by
    simp [Process.combine_eq, hb]
  exact exec_of_rule_ok hi hp hcombine

/-- A combination that writes no flag. -/
theorem exec_combine_keep {b : Word}
    (hi : ruleOf s.cfg i = quiet (Process.combine r.word src f Flags.keep))
    (hp : s.current = some p) (hb : p.sourceWord src = .ok b) :
    exec i s = .next (s.setCurrent
      { p with regs := p.regs.set r (f (p.reg r) b), pc := p.pc + 3#32 }) :=
  exec_combine hi hp hb

/-- A combination that writes carry from the unreduced sum. -/
theorem exec_combine_addCarry {b : Word}
    (hi : ruleOf s.cfg i = quiet (Process.combine r.word src f Flags.addCarry))
    (hp : s.current = some p) (hb : p.sourceWord src = .ok b) :
    exec i s = .next (s.setCurrent { p with
      regs := p.regs.set r (f (p.reg r) b)
      flags := { p.flags with carry := decide ((p.reg r).toNat + b.toNat > 0xffffffff) }
      pc := p.pc + 3#32 }) :=
  exec_combine hi hp hb

end

/-! ### add-register under each value of its parameter (R102, R111) -/

theorem ruleOf_addRegister_of_false {c : Config} (hc : c.addRegWritesCarry = false)
    (dst src : RegWord) :
    ruleOf c (.addRegister dst src) =
      quiet (Process.combine dst (.loc (.reg src)) addWord Flags.keep) := by
  rw [ruleOf, hc]
  rfl

theorem ruleOf_addRegister_of_true {c : Config} (hc : c.addRegWritesCarry = true)
    (dst src : RegWord) :
    ruleOf c (.addRegister dst src) =
      quiet (Process.combine dst (.loc (.reg src)) addWord Flags.addCarry) := by
  rw [ruleOf, hc]
  rfl

/-! ### The statements -/

/-- Settles O14: the sum of a register and an immediate, with carry. -/
theorem addValueWrapsAndWritesCarry : Obligations.AddValueWrapsAndWritesCarry := by
  unfold Obligations.AddValueWrapsAndWritesCarry
  refine ⟨fun _ _ => rfl, fun s p r v hp => ⟨_, addWord_toNat _ _, ?sum⟩,
    fun s p w v hp hw => ?badReg⟩
  case sum => exact exec_combine_addCarry rfl hp (p.sourceWord_value v)
  case badReg => exact exec_combine_bad_register rfl hp hw

/-- Settles O15: the sum of two registers; the parameter decides whether its rule is the one that keeps
the flags or the one that writes carry. -/
theorem addRegisterWrapsAndFollowsTheCarryParameter :
    Obligations.AddRegisterWrapsAndFollowsTheCarryParameter := by
  unfold Obligations.AddRegisterWrapsAndFollowsTheCarryParameter
  refine ⟨fun _ _ => rfl,
    fun s p r r' hp => ⟨_, addWord_toNat _ _, fun hc => ?keepsFlags, fun hc => ?writesCarry⟩,
    fun s p w1 w2 hp hw => ?badDst, fun s p r w2 hp hw => ?badSrc⟩
  case keepsFlags =>
    exact exec_combine_keep (ruleOf_addRegister_of_false hc _ _) hp (p.sourceWord_reg r')
  case writesCarry =>
    exact exec_combine_addCarry (ruleOf_addRegister_of_true hc _ _) hp (p.sourceWord_reg r')
  case badDst => exact exec_combine_bad_register rfl hp hw
  case badSrc =>
    exact exec_combine_bad_source rfl hp (Process.sourceWord_loc_bad (p.place_reg_bad hw))

/-- Settles O16: the difference of a register and an immediate, or of two registers, with the flags
kept. -/
theorem subtractsWrapAndKeepFlags : Obligations.SubtractsWrapAndKeepFlags := by
  unfold Obligations.SubtractsWrapAndKeepFlags
  refine ⟨⟨fun _ _ => rfl, fun s p r v hp => ⟨_, subWord_toNat _ _, ?value⟩,
      fun s p w v hp hw => ?valueBadReg⟩,
    fun _ _ => rfl, fun s p r r' hp => ⟨_, subWord_toNat _ _, ?register⟩,
    fun s p w1 w2 hp hw => ?registerBadDst, fun s p r w2 hp hw => ?registerBadSrc⟩
  case value => exact exec_combine_keep rfl hp (p.sourceWord_value v)
  case valueBadReg => exact exec_combine_bad_register rfl hp hw
  case register => exact exec_combine_keep rfl hp (p.sourceWord_reg r')
  case registerBadDst => exact exec_combine_bad_register rfl hp hw
  case registerBadSrc =>
    exact exec_combine_bad_source rfl hp (Process.sourceWord_loc_bad (p.place_reg_bad hw))

end Sys2Proof.Machine

/-! PROOFS. Increment and decrement (R105 to R110). Each changes one word in place, so what they do is said
once, in four cases in the order of the checks: the register word is bad, the heap address is bad, a
register is written, a heap word is written. -/

namespace Sys2Proof.Machine

/-! ### The new word -/

/-- `x` is `v` plus 1, modulo 2^32 (R105). -/
def IsSuccessor (v x : Word) : Prop := x.toNat = (v.toNat + 1) % 2 ^ 32

/-- `x` is `v` minus 1, modulo 2^32 (R108). -/
def IsPredecessor (v x : Word) : Prop := (x.toNat : Int) = (v.toNat - 1 : Int) % 2 ^ 32

theorem incWord_isSuccessor (v : Word) : IsSuccessor v (incWord v) := addWord_toNat v 1#32

theorem decWord_isPredecessor (v : Word) : IsPredecessor v (decWord v) := subWord_toNat v 1#32

/-! ### A change in place, case by case -/

section
variable {i : Instr} {s : State} {p : Process} {l : Loc} {f : Word → Word}

theorem exec_modify_bad_location {c : Cause} {info : Word}
    (hi : ruleOf s.cfg i = quiet (Process.modifyWord l f)) (hp : s.current = some p)
    (hl : p.place l = .error ⟨c, info⟩) : exec i s = .next (s.abortedBy c info) :=
  exec_of_rule_error hi hp (by simp [Process.modifyWord, hl])

theorem exec_modify_bad_address {a : Word}
    (hi : ruleOf s.cfg i = quiet (Process.modifyWord l f)) (hp : s.current = some p)
    (hl : p.place l = .ok (.cell a)) (ha : p.heapSize ≤ a.toNat) :
    exec i s = .next (s.abortedBy .heapBounds a) :=
  exec_of_rule_error hi hp (by simp [Process.modifyWord, hl, Process.memRead_bad ha])

theorem exec_modify_register {r : Reg}
    (hi : ruleOf s.cfg i = quiet (Process.modifyWord (.reg r.word) f)) (hp : s.current = some p) :
    exec i s =
      .next (s.setCurrent { p with regs := p.regs.set r (f (p.reg r)), pc := p.pc + 2#32 }) := by
  have hmodify : Process.modifyWord (.reg r.word) f p =
      .ok ((p.setReg r (f (p.reg r))).advance 1) := by
    simp [Process.modifyWord]
  exact exec_of_rule_ok hi hp hmodify

theorem exec_modify_cell {a : Word}
    (hi : ruleOf s.cfg i = quiet (Process.modifyWord l f)) (hp : s.current = some p)
    (hl : p.place l = .ok (.cell a)) (ha : a.toNat < p.heapSize) :
    exec i s = .next (s.setCurrent
      { p with heap := p.heap.write a.toNat (f (p.heapWord a.toNat)), pc := p.pc + 2#32 }) := by
  have hmodify : Process.modifyWord l f p =
      .ok (({ p with
        heap := p.heap.write a.toNat (f (p.heapWord a.toNat)) } : Process).advance 1) := by
    simp [Process.modifyWord, hl, Process.memRead_ok ha, Process.memWrite_ok _ ha]
  exact exec_of_rule_ok hi hp hmodify

end

/-! ### An instruction on each kind of target

The increments and the decrements differ in the change `f` alone, so each kind of target is treated for an
instruction `i` that performs any `f`; `R` is what is known of the new word from the old one. -/

section
variable {i : Word → Instr} {f : Word → Word} {R : Word → Word → Prop}

theorem exec_modifies_register (hf : ∀ v, R v (f v))
    (hi : ∀ c w, ruleOf c (i w) = quiet (Process.modifyWord (.reg w) f)) :
    (∀ (s : State) (p : Process) (r : Reg), s.current = some p →
      ∃ x, R (p.reg r) x ∧ exec (i r.word) s =
        .next (s.setCurrent { p with regs := p.regs.set r x, pc := p.pc + 2#32 })) ∧
    (∀ (s : State) (p : Process) (w : Word), s.current = some p → 6 ≤ w.toNat →
      exec (i w) s = .next (s.abortedBy .badRegister w)) :=
  ⟨fun _ _ _ hp => ⟨_, hf _, exec_modify_register (hi _ _) hp⟩,
    fun _ p _ hp hw => exec_modify_bad_location (hi _ _) hp (p.place_reg_bad hw)⟩

theorem exec_modifies_memory (hf : ∀ v, R v (f v))
    (hi : ∀ c a, ruleOf c (i a) = quiet (Process.modifyWord (.mem a) f)) :
    (∀ (s : State) (p : Process) (a : Word), s.current = some p → a.toNat < p.heapSize →
      ∃ x, R (p.heapWord a.toNat) x ∧ exec (i a) s =
        .next (s.setCurrent { p with heap := p.heap.write a.toNat x, pc := p.pc + 2#32 })) ∧
    (∀ (s : State) (p : Process) (a : Word), s.current = some p → p.heapSize ≤ a.toNat →
      exec (i a) s = .next (s.abortedBy .heapBounds a)) :=
  ⟨fun _ p a hp ha => ⟨_, hf _, exec_modify_cell (hi _ _) hp (p.place_mem a) ha⟩,
    fun _ p a hp ha => exec_modify_bad_address (hi _ _) hp (p.place_mem a) ha⟩

theorem exec_modifies_memory_at_register (hf : ∀ v, R v (f v))
    (hi : ∀ c w, ruleOf c (i w) = quiet (Process.modifyWord (.memAt w) f)) :
    (∀ (s : State) (p : Process) (r : Reg), s.current = some p → (p.reg r).toNat < p.heapSize →
      ∃ x, R (p.heapWord (p.reg r).toNat) x ∧ exec (i r.word) s =
        .next (s.setCurrent
          { p with heap := p.heap.write (p.reg r).toNat x, pc := p.pc + 2#32 })) ∧
    (∀ (s : State) (p : Process) (w : Word), s.current = some p → 6 ≤ w.toNat →
      exec (i w) s = .next (s.abortedBy .badRegister w)) ∧
    (∀ (s : State) (p : Process) (r : Reg), s.current = some p → p.heapSize ≤ (p.reg r).toNat →
      exec (i r.word) s = .next (s.abortedBy .heapBounds (p.reg r))) :=
  ⟨fun _ p r hp ha => ⟨_, hf _, exec_modify_cell (hi _ _) hp (p.place_memAt r) ha⟩,
    fun _ p _ hp hw => exec_modify_bad_location (hi _ _) hp (p.place_memAt_bad hw),
    fun _ p r hp ha => exec_modify_bad_address (hi _ _) hp (p.place_memAt r) ha⟩

end

/-! ### The statements -/

/-- Settles O17: the three instructions that change their target by `incWord`. -/
theorem incrementsAddOneToTheirTarget : Obligations.IncrementsAddOneToTheirTarget := by
  unfold Obligations.IncrementsAddOneToTheirTarget
  refine ⟨⟨fun _ => rfl, ?register⟩, ⟨fun _ => rfl, ?memory⟩, fun _ => rfl, ?memoryAtRegister⟩
  case register => exact exec_modifies_register incWord_isSuccessor fun _ _ => rfl
  case memory => exact exec_modifies_memory incWord_isSuccessor fun _ _ => rfl
  case memoryAtRegister =>
    exact exec_modifies_memory_at_register incWord_isSuccessor fun _ _ => rfl

/-- Settles O18: the three instructions that change their target by `decWord`. A change in place writes
one place, so there is no fall-through effect. -/
theorem decrementsSubtractOneFromTheirTarget :
    Obligations.DecrementsSubtractOneFromTheirTarget := by
  unfold Obligations.DecrementsSubtractOneFromTheirTarget
  refine ⟨⟨fun _ => rfl, ?register⟩, ⟨fun _ => rfl, ?memory⟩, fun _ => rfl, ?memoryAtRegister⟩
  case register => exact exec_modifies_register decWord_isPredecessor fun _ _ => rfl
  case memory => exact exec_modifies_memory decWord_isPredecessor fun _ _ => rfl
  case memoryAtRegister =>
    exact exec_modifies_memory_at_register decWord_isPredecessor fun _ _ => rfl

end Sys2Proof.Machine

/-! PROOFS. Compare and jump (R130 to R135). A comparison is of a register with a source, so what it does is
said once, in three cases in the order of the checks: the register word is bad, the source cannot be read,
`zero` and `carry` are written. -/

namespace Sys2Proof.Machine

/-! ### The three-way rule (R130) -/

theorem Flags.compare_of_eq (f : Flags) {a b : Word} (h : a.toNat = b.toNat) :
    (f.compare a b).zero = true ∧ (f.compare a b).carry = false := by
  simp [Flags.compare, h]

theorem Flags.compare_of_lt (f : Flags) {a b : Word} (h : a.toNat < b.toNat) :
    (f.compare a b).zero = false ∧ (f.compare a b).carry = true := by
  simp [Flags.compare, h, h.ne]

theorem Flags.compare_of_gt (f : Flags) {a b : Word} (h : b.toNat < a.toNat) :
    (f.compare a b).zero = false ∧ (f.compare a b).carry = false := by
  simp [Flags.compare, h.ne', h.le]

/-! ### A comparison, case by case -/

/-- A comparison checks its register word, reads its source, and writes the flags. -/
theorem Process.compareWith_eq (w : RegWord) (src : Source) (p : Process) :
    Process.compareWith w src p = (do
      let r ← regOperand w
      let b ← p.sourceWord src
      return (p.setFlags (p.flags.compare (p.reg r) b)).advance 2) := by
  simp [Process.compareWith, Process.sourceWord]

section
variable {i : Instr} {s : State} {p : Process} {w : RegWord} {r : Reg} {src : Source}

theorem exec_compare_bad_register (hi : ruleOf s.cfg i = quiet (Process.compareWith w src))
    (hp : s.current = some p) (hw : 6 ≤ w.toNat) : exec i s = .next (s.abortedBy .badRegister w) :=
  exec_of_rule_error hi hp (by simp [Process.compareWith_eq, regOperand_bad hw])

theorem exec_compare_bad_source {c : Cause} {info : Word}
    (hi : ruleOf s.cfg i = quiet (Process.compareWith r.word src)) (hp : s.current = some p)
    (hb : p.sourceWord src = .error ⟨c, info⟩) : exec i s = .next (s.abortedBy c info) :=
  exec_of_rule_error hi hp (by simp [Process.compareWith_eq, hb])

theorem exec_compare {b : Word}
    (hi : ruleOf s.cfg i = quiet (Process.compareWith r.word src)) (hp : s.current = some p)
    (hb : p.sourceWord src = .ok b) :
    exec i s = .next (s.setCurrent
      { p with flags := p.flags.compare (p.reg r) b, pc := p.pc + 3#32 }) := by
  have hcompare : Process.compareWith r.word src p =
      .ok ((p.setFlags (p.flags.compare (p.reg r) b)).advance 2) := by
    simp [Process.compareWith_eq, hb]
  exact exec_of_rule_ok hi hp hcompare

/-- A comparison that answers writes `zero` and `carry` by the three-way rule, and pc. -/
theorem exec_compare_three_way {b : Word}
    (hi : ruleOf s.cfg i = quiet (Process.compareWith r.word src)) (hp : s.current = some p)
    (hb : p.sourceWord src = .ok b) :
    ∃ z c : Bool,
      ((p.reg r).toNat = b.toNat → z = true ∧ c = false) ∧
      ((p.reg r).toNat < b.toNat → z = false ∧ c = true) ∧
      (b.toNat < (p.reg r).toNat → z = false ∧ c = false) ∧
      exec i s = .next (s.setCurrent
        { p with flags := { p.flags with zero := z, carry := c }, pc := p.pc + 3#32 }) :=
  ⟨_, _, p.flags.compare_of_eq, p.flags.compare_of_lt, p.flags.compare_of_gt,
    exec_compare hi hp hb⟩

end

/-! ### A jump -/

theorem exec_jump {s : State} {p : Process} (target : Target) (hp : s.current = some p) :
    exec (.jump target) s = .next (s.setCurrent { p with pc := target }) :=
  exec_of_rule_ok (f := fun p => return p.jumpTo target) rfl hp rfl

/-- jump-if-equal takes its target or falls through past its operand, as `zero` says. -/
theorem exec_jumpIfEqual {s : State} {p : Process} (target : Target) (hp : s.current = some p) :
    exec (.jumpIfEqual target) s = .next (s.setCurrent
      (if p.flags.zero then { p with pc := target } else { p with pc := p.pc + 2#32 })) :=
  exec_of_rule_ok (f := fun p => return (if p.flags.zero then p.jumpTo target else p.advance 1))
    rfl hp rfl

/-! ### The statements -/

/-- Settles O22: a register compared with an immediate, or with another register. -/
theorem comparesSetZeroAndCarry : Obligations.ComparesSetZeroAndCarry := by
  unfold Obligations.ComparesSetZeroAndCarry
  refine ⟨⟨fun _ _ => rfl, fun s p r v hp => ?value, fun s p w v hp hw => ?valueBadReg⟩,
    fun _ _ => rfl, fun s p r r' hp => ?register, fun s p w1 w2 hp hw => ?registerBadFirst,
    fun s p r w2 hp hw => ?registerBadSecond⟩
  case value => exact exec_compare_three_way rfl hp (p.sourceWord_value v)
  case valueBadReg => exact exec_compare_bad_register rfl hp hw
  case register => exact exec_compare_three_way rfl hp (p.sourceWord_reg r')
  case registerBadFirst => exact exec_compare_bad_register rfl hp hw
  case registerBadSecond =>
    exact exec_compare_bad_source rfl hp (Process.sourceWord_loc_bad (p.place_reg_bad hw))

/-- Settles O23: jump-if-equal is decided by `zero`, jump by nothing. -/
theorem jumpsWriteOnlyThePc : Obligations.JumpsWriteOnlyThePc := by
  unfold Obligations.JumpsWriteOnlyThePc
  refine ⟨fun _ => rfl, fun s p target hp => exec_jump target hp, fun _ => rfl,
    fun s p target hp hz => ?taken, fun s p target hp hz => ?fallsThrough⟩
  case taken => simp [exec_jumpIfEqual target hp, hz]
  case fallsThrough => simp [exec_jumpIfEqual target hp, hz]

end Sys2Proof.Machine

/-! PROOFS. The unknown opcode (R160), one lemma per layer: the decoder's rejection (R56), the raise of the
executor step, and the scheduler step that a raise ends (R157). -/

namespace Sys2Proof

theorem nops_eq_none {op : Nat} (h : 0x1e < op) : nops op = none := by
  simp (disch := omega) only [nops, if_neg]

/-- The opcode is tested before any operand word is looked for (R140). -/
theorem decode_unknownOpcode {op : Word} (rest : List Word) (h : 0x1e < op.toNat) :
    decode (op :: rest) = .reject (.unknownOpcode op) := by
  simp only [decode, nops_eq_none h]

end Sys2Proof

namespace Sys2Proof.Machine

/-- The first word that decoding sees is the word at pc (R33). -/
theorem Process.fetchWords_of_getElem? {p : Process} {op : Word}
    (h : p.stream[p.pc.toNat]? = some op) :
    p.fetchWords = op :: p.stream.drop (p.pc.toNat + 1) := by
  obtain ⟨hlt, rfl⟩ := List.getElem?_eq_some_iff.mp h
  exact List.drop_eq_getElem_cons hlt

theorem Process.live_of_getElem? {p : Process} {op : Word}
    (h : p.stream[p.pc.toNat]? = some op) : p.live = true :=
  Process.live_iff.mpr (List.getElem?_eq_some_iff.mp h).1

theorem State.execStep_unknownOpcode {s : State} {p : Process} {op : Word}
    (hp : s.current = some p) (hlive : p.live = true)
    (h : decode p.fetchWords = .reject (.unknownOpcode op)) :
    s.execStep = .next (s.abortedBy .unknownOpcode op) := by
  simp only [State.execStep, hp, hlive, h, if_true]
  rfl

theorem State.pt_length_ne_zero_of_current {s : State} {p : Process} (h : s.current = some p) :
    s.pt.length ≠ 0 :=
  Nat.ne_zero_of_lt (State.cur_lt_of_current h)

/-- A step that is due and whose executor step aborts the machine ends there: no accounting (R157). -/
theorem step_of_execStep_aborted {s t : State} {p : Process} (hr : s.Ready)
    (hp : s.current = some p) (h : s.execStep = .next t) (ht : t.mstate = .aborted) :
    step s = .next t := by
  obtain ⟨hrun, hdue, hq⟩ := hr
  rw [step_of_none hdue, State.ownStep_run hrun]
  simp only [State.schedStep, State.pt_length_ne_zero_of_current hp, hq, h, ht, if_true, if_false]

/-- Settles O33: the word at pc is rejected by the decoder, so the executor step raises, and the raise
ends the step. -/
theorem unknownOpcodeAbortsTheMachine : Obligations.UnknownOpcodeAbortsTheMachine := by
  unfold Obligations.UnknownOpcodeAbortsTheMachine
  intro s p op hready hp hword hop
  have hdecode : decode p.fetchWords = .reject (.unknownOpcode op) := by
    rw [Process.fetchWords_of_getElem? hword, decode_unknownOpcode _ hop]
  have hexec : s.execStep = .next (s.abortedBy .unknownOpcode op) :=
    State.execStep_unknownOpcode hp (Process.live_of_getElem? hword) hdecode
  exact ⟨step_of_execStep_aborted hready hp hexec rfl, rfl⟩

end Sys2Proof.Machine

/-! PROOFS. The decoder and the encoder (R50 to R62). The opcode map is characterised by the words of the
instruction it answers, the decoder by the three things it can answer to a list with an opcode word; that
they agree, and when the decoder rejects, follow from these two. -/

namespace Sys2Proof

/-! ### The opcode map -/

/-- The opcode map answers the instruction with that opcode whose operand words are the words given; an
instruction with fewer operand words ignores the others. -/
theorem instrOf_eq_some {op : Nat} {w1 w2 : Word} {i : Instr} (h : instrOf op w1 w2 = some i) :
    op = i.opcode.toNat ∧ i.operands = [w1, w2].take i.operands.length := by
  unfold instrOf at h
  split at h <;> cases h <;> exact ⟨rfl, rfl⟩

/-- The opcode map gives an instruction back from its opcode and operand words, whatever follows. -/
theorem instrOf_opcode (i : Instr) (rest : List Word) :
    instrOf i.opcode.toNat ((i.operands ++ rest).getD 0 0#32) ((i.operands ++ rest).getD 1 0#32) =
      some i := by
  cases i <;> rfl

/-- Every opcode up to 0x1e is in the opcode map. -/
theorem exists_instrOf {op : Nat} (h : op ≤ 0x1e) (w1 w2 : Word) :
    ∃ i, instrOf op w1 w2 = some i := by
  interval_cases op <;> exact ⟨_, rfl⟩

theorem nops_eq_none_iff {op : Nat} : nops op = none ↔ 0x1e < op := by
  refine ⟨fun h => ?_, nops_eq_none⟩
  by_contra hle
  obtain ⟨i, hi⟩ := exists_instrOf (Nat.le_of_not_lt hle) 0#32 0#32
  rw [(instrOf_eq_some hi).1, nops_opcode] at h
  cases h

theorem encode_append (i : Instr) (rest : List Word) :
    encode i ++ rest = i.opcode :: (i.operands ++ rest) := rfl

/-! ### The decoder -/

/-- Everything the decoder can answer to a list with an opcode word (R140, R160, R161). -/
theorem decode_cons_cases (op : Word) (rest : List Word) :
    (0x1e < op.toNat ∧ decode (op :: rest) = .reject (.unknownOpcode op)) ∨
      (∃ n, nops op.toNat = some n ∧ rest.length < n ∧
        decode (op :: rest) = .reject (.truncated op)) ∨
      (∃ n i, nops op.toNat = some n ∧ n ≤ rest.length ∧
        instrOf op.toNat (rest.getD 0 0#32) (rest.getD 1 0#32) = some i ∧
        decode (op :: rest) = .instr i (rest.drop n)) := by
  cases hn : nops op.toNat with
  | none =>
    have hop := nops_eq_none_iff.mp hn
    exact .inl ⟨hop, decode_unknownOpcode rest hop⟩
  | some n =>
    have hop : op.toNat ≤ 0x1e := by
      by_contra hgt
      rw [nops_eq_none (Nat.lt_of_not_le hgt)] at hn
      cases hn
    obtain ⟨i, hi⟩ := exists_instrOf hop (rest.getD 0 0#32) (rest.getD 1 0#32)
    by_cases hlen : rest.length < n
    · exact .inr (.inl ⟨n, rfl, hlen, by simp only [decode, hn, hlen, if_true]⟩)
    · exact .inr (.inr ⟨n, i, rfl, Nat.le_of_not_lt hlen, hi, by
        simp only [decode, hn, hlen, if_false, hi]⟩)

theorem decode_truncated {op : Word} {rest : List Word} {n : Nat} (hn : nops op.toNat = some n)
    (hlen : rest.length < n) : decode (op :: rest) = .reject (.truncated op) := by
  simp only [decode, hn, hlen, if_true]

/-- The decoder reads an instruction back from its words. -/
theorem decode_encode (i : Instr) (rest : List Word) :
    decode (encode i ++ rest) = .instr i rest := by
  have hlen : ¬ (i.operands ++ rest).length < i.operands.length := by simp
  simp only [encode_append, decode, nops_opcode, hlen, if_false, instrOf_opcode, List.drop_left]

/-- The first `n` words of a list, for an instruction's few operand words. -/
theorem take_getD_eq {ws : List Word} {n : Nat} (hn : n ≤ 2) (hlen : n ≤ ws.length) :
    [ws.getD 0 0#32, ws.getD 1 0#32].take n = ws.take n := by
  match ws, n with
  | _, 0 => rfl
  | _ :: _, 1 => rfl
  | _ :: _ :: _, 2 => rfl
  | _, n + 3 => omega
  | [], _ + 1 => simp at hlen
  | [_], 2 => simp at hlen

/-- The words that the decoder reads an instruction from are the instruction's words. -/
theorem encode_of_decode {ws : List Word} {i : Instr} {rest : List Word}
    (h : decode ws = .instr i rest) : ws = encode i ++ rest := by
  cases ws with
  | nil => cases h
  | cons op ws =>
    rcases decode_cons_cases op ws with ⟨-, hd⟩ | ⟨n, -, -, hd⟩ | ⟨n, j, hn, hlen, hj, hd⟩
    · simp [hd] at h
    · simp [hd] at h
    · obtain ⟨rfl, rfl⟩ : j = i ∧ ws.drop n = rest := by simpa [hd] using h
      obtain ⟨hop, hoperands⟩ := instrOf_eq_some hj
      obtain rfl : j.operands.length = n := by simpa [hop, nops_opcode] using hn
      have hle : j.operands.length ≤ 2 := by simpa using congrArg List.length hoperands
      rw [take_getD_eq hle hlen] at hoperands
      have hsplit := ws.take_append_drop j.operands.length
      rw [← hoperands] at hsplit
      rw [encode_append, hsplit, BitVec.eq_of_toNat_eq hop]

/-! ### The statements -/

/-- Settles O1: `decode_encode` is one direction, `encode_of_decode` the other. -/
theorem decodeReadsExactlyTheEncodings : Obligations.DecodeReadsExactlyTheEncodings := by
  unfold Obligations.DecodeReadsExactlyTheEncodings
  intro ws i rest
  refine ⟨encode_of_decode, ?_⟩
  rintro rfl
  exact decode_encode i rest

/-- Settles O2: the three answers of `decode_cons_cases` exclude each other. -/
theorem decoderRejectsByName : Obligations.DecoderRejectsByName := by
  unfold Obligations.DecoderRejectsByName
  refine ⟨fun op rest => ⟨fun h => ?unknown, decode_unknownOpcode rest⟩,
    fun op rest => ⟨fun h => ?truncated, fun ⟨n, hn, hlen⟩ => decode_truncated hn hlen⟩,
    fun ws => ⟨fun h => ?empty, ?_⟩⟩
  case unknown =>
    rcases decode_cons_cases op rest with ⟨hop, -⟩ | ⟨n, -, -, hd⟩ | ⟨n, i, -, -, -, hd⟩
    · exact hop
    · simp [hd] at h
    · simp [hd] at h
  case truncated =>
    rcases decode_cons_cases op rest with ⟨-, hd⟩ | ⟨n, hn, hlen, -⟩ | ⟨n, i, -, -, -, hd⟩
    · simp [hd] at h
    · exact ⟨n, hn, hlen⟩
    · simp [hd] at h
  case empty =>
    cases ws with
    | nil => rfl
    | cons op rest =>
      rcases decode_cons_cases op rest with ⟨-, hd⟩ | ⟨n, -, -, hd⟩ | ⟨n, i, -, -, -, hd⟩ <;>
        simp [hd] at h
  · rintro rfl
    rfl

/-- Settles O4: each list is an instruction's words and what follows them. -/
theorem wordsOfTheOpcodeMapDecode : Obligations.WordsOfTheOpcodeMapDecode := by
  unfold Obligations.WordsOfTheOpcodeMapDecode
  exact ⟨decode_encode .syscall [],
    decode_encode (.movRegisterToMemory 16#32 1#32) [],
    decode_encode (.movMemAtRegisterToMemAtRegister 5#32 4#32) [9#32],
    decode_encode (.subValue 0#32 3#32) [],
    decode_encode (.decrementMemoryAtRegister 4#32) [],
    decode_encode (.divRegister 2#32) [],
    decode_encode (.compareRegister 1#32 2#32) [],
    decode_encode (.jumpIfEqual 0xb#32) []⟩

end Sys2Proof

/-! PROOFS. The instructions by form. The 31 rules are nine shared operations; `formOf` names the operation of
each instruction with its operands, so that a fact about every rule is a fact about nine forms. -/

namespace Sys2Proof.Machine

/-! ### Forms -/

/-- The shared operation that a rule performs, with its operands. -/
inductive Form where
  | call
  | copy (dst : Loc) (src : Source)
  | combine (w : RegWord) (src : Source) (f : Word → Word → Word) (writesCarry : Bool)
  | compare (w : RegWord) (src : Source)
  | modify (l : Loc) (f : Word → Word)
  | multiply (src : Source)
  | divide (opcode : Word) (src : Source)
  | jump (target : Target)
  | jumpIfEqual (target : Target)

/-- The form of each instruction; the parameter `ADD_REG_WRITES_CARRY` decides that of add-register. -/
def formOf (c : Config) : Instr → Form
  | .syscall => .call
  | .movValueToRegister reg value => .copy (.reg reg) (.value value)
  | .movRegisterToRegister dst src => .copy (.reg dst) (.loc (.reg src))
  | .movMemoryToRegister reg addr => .copy (.reg reg) (.loc (.mem addr))
  | .movValueToMemory addr value => .copy (.mem addr) (.value value)
  | .movRegisterToMemory addr reg => .copy (.mem addr) (.loc (.reg reg))
  | .addValue reg value => .combine reg (.value value) addWord true
  | .addRegister dst src => .combine dst (.loc (.reg src)) addWord c.addRegWritesCarry
  | .subValue reg value => .combine reg (.value value) subWord false
  | .subRegister dst src => .combine dst (.loc (.reg src)) subWord false
  | .mulValue value => .multiply (.value value)
  | .mulRegister reg => .multiply (.loc (.reg reg))
  | .divValue value => .divide 0xc#32 (.value value)
  | .divRegister reg => .divide 0xd#32 (.loc (.reg reg))
  | .movValueToMemAtRegister reg value => .copy (.memAt reg) (.value value)
  | .movRegisterToMemAtRegister reg srcReg => .copy (.memAt reg) (.loc (.reg srcReg))
  | .movMemToMem addr addr2 => .copy (.mem addr) (.loc (.mem addr2))
  | .movMemToMemAtRegister reg addr2 => .copy (.memAt reg) (.loc (.mem addr2))
  | .movMemAtRegisterToRegister reg addrReg => .copy (.reg reg) (.loc (.memAt addrReg))
  | .movMemAtRegisterToMem addr addrReg => .copy (.mem addr) (.loc (.memAt addrReg))
  | .movMemAtRegisterToMemAtRegister reg addrReg => .copy (.memAt reg) (.loc (.memAt addrReg))
  | .incrementRegister reg => .modify (.reg reg) incWord
  | .incrementMemory addr => .modify (.mem addr) incWord
  | .incrementMemoryAtRegister reg => .modify (.memAt reg) incWord
  | .decrementRegister reg => .modify (.reg reg) decWord
  | .decrementMemory addr => .modify (.mem addr) decWord
  | .decrementMemoryAtRegister reg => .modify (.memAt reg) decWord
  | .compareValue reg value => .compare reg (.value value)
  | .compareRegister reg reg2 => .compare reg (.loc (.reg reg2))
  | .jump target => .jump target
  | .jumpIfEqual target => .jumpIfEqual target

/-- The rule of a form, on one process; `k` is the split constant of multiply and divide. -/
def Form.rule (k : Nat) : Form → Process → Except Raise (Process × List Event)
  | .call => fun p => do
    let es ← p.dispatchCall
    return (p.advance 0, es)
  | .copy dst src => quiet (Process.copyWord dst src)
  | .combine w src f writesCarry =>
    quiet (Process.combine w src f (Flags.addRegisterCarry writesCarry))
  | .compare w src => quiet (Process.compareWith w src)
  | .modify l f => quiet (Process.modifyWord l f)
  | .multiply src => quiet (Process.multiplyBy k src)
  | .divide opcode src => quiet (Process.divideBy k opcode src)
  | .jump target => quiet fun p => return p.jumpTo target
  | .jumpIfEqual target =>
    quiet fun p => return (if p.flags.zero then p.jumpTo target else p.advance 1)

/-- An instruction's rule is that of its form. -/
theorem ruleOf_eq_form (c : Config) (i : Instr) : ruleOf c i = (formOf c i).rule c.mulSplit := by
  cases i <;> rfl

theorem formOf_eq_call {c : Config} {i : Instr} (h : formOf c i = .call) : i = .syscall := by
  cases i with
  | syscall => rfl
  | _ => cases h

theorem formOf_eq_jumpIfEqual {c : Config} {i : Instr} {target : Target}
    (h : formOf c i = .jumpIfEqual target) : i = .jumpIfEqual target := by
  cases i <;> cases h
  rfl

/-! ### What a form writes -/

/-- Where a form puts its result: nowhere, in one location, or in the pair `x[0]`, `x[3]` (R12, R30). -/
inductive Dest where
  | nothing
  | loc (l : Loc)
  | pair

/-- Where each form puts its result. -/
def Form.dest : Form → Dest
  | .copy dst _ => .loc dst
  | .combine w _ _ _ => .loc (.reg w)
  | .modify l _ => .loc l
  | .multiply _ => .pair
  | .divide _ _ => .pair
  | .call => .nothing
  | .compare _ _ => .nothing
  | .jump _ => .nothing
  | .jumpIfEqual _ => .nothing

/-- The destination is, or holds, a register. -/
def Dest.writesReg : Dest → Reg → Bool
  | .nothing, _ => false
  | .loc (.reg w), r => decide (w = r.word)
  | .loc (.mem _), _ => false
  | .loc (.memAt _), _ => false
  | .pair, r => decide (r = .r0) || decide (r = .r3)

/-- The destination as a heap location, where it is one. -/
def Dest.storeLoc : Dest → Option Loc
  | .loc (.mem a) => some (.mem a)
  | .loc (.memAt w) => some (.memAt w)
  | .loc (.reg _) => none
  | .nothing => none
  | .pair => none

/-- The process `p'` is `p` with a result put in a destination. -/
def Dest.Written (d : Dest) (p p' : Process) : Prop :=
  match d with
  | .nothing => p' = p
  | .loc l => ∃ pl v, p.place l = .ok pl ∧ p.putPlace pl v = .ok p'
  | .pair => ∃ lo hi, p' = (p.setReg .r0 lo).setReg .r3 hi

/-- The form writes the flag `zero` (R130). -/
def Form.writesZero : Form → Bool
  | .compare _ _ => true
  | _ => false

/-- The form writes the flag `carry` (R16). -/
def Form.writesCarry : Form → Bool
  | .compare _ _ => true
  | .combine _ _ _ writesCarry => writesCarry
  | _ => false

/-- The flags `g` are `f` but for those that a form writes. -/
def Form.FlagsWritten (m : Form) (f g : Flags) : Prop :=
  g.sign = f.sign ∧ (m.writesZero = false → g.zero = f.zero) ∧
    (m.writesCarry = false → g.carry = f.carry)

theorem Form.flagsWritten_refl (m : Form) (f : Flags) : m.FlagsWritten f f :=
  ⟨rfl, fun _ => rfl, fun _ => rfl⟩

/-- The flags of a combination: carry alone is written, and only where the form says so. -/
theorem Form.flagsWritten_addRegisterCarry (w : RegWord) (src : Source) (f : Word → Word → Word)
    (writesCarry : Bool) (g : Flags) (a b : Word) :
    (Form.combine w src f writesCarry).FlagsWritten g (g.addRegisterCarry writesCarry a b) := by
  cases writesCarry with
  | false => exact Form.flagsWritten_refl _ g
  | true => exact ⟨rfl, fun _ => rfl, fun h => by cases h⟩

/-- The flags of a comparison: all but `sign` may be written. -/
theorem Form.flagsWritten_compare (w : RegWord) (src : Source) (g : Flags) (a b : Word) :
    (Form.compare w src).FlagsWritten g (g.compare a b) := by
  refine ⟨rfl, fun h => ?_, fun h => ?_⟩ <;> cases h

/-! ### What the claims say of an instruction, by its form -/

theorem writesReg_eq_form (c : Config) (i : Instr) (r : Reg) :
    i.writesReg r = (formOf c i).dest.writesReg r := by
  cases i <;> rfl

theorem storeLoc_eq_form (c : Config) (i : Instr) :
    i.storeLoc = (formOf c i).dest.storeLoc := by
  cases i <;> rfl

theorem isCompare_eq_form (c : Config) (i : Instr) : i.isCompare = (formOf c i).writesZero := by
  cases i <;> rfl

theorem writesCarry_eq_form (c : Config) (i : Instr) :
    i.writesCarry c = (formOf c i).writesCarry := by
  cases i <;> rfl

/-! ### Everything a rule can do when it answers -/

/-- A rule that answers has put a result in its destination, written its flags, and set pc; nothing else. -/
theorem Form.rule_ok {m : Form} {k : Nat} {p q : Process} {es : List Event}
    (h : m.rule k p = .ok (q, es)) :
    ∃ p' g t, m.dest.Written p p' ∧ m.FlagsWritten p.flags g ∧ q = (p'.setFlags g).jumpTo t := by
  cases m with
  | call =>
    obtain ⟨rfl, -⟩ := ruleOf_syscall_ok (c := Config.default) h
    exact ⟨p, p.flags, _, rfl, Form.flagsWritten_refl _ _, rfl⟩
  | copy dst src =>
    obtain ⟨pl, v, p', hpl, hput, rfl⟩ := Process.copyWord_ok (quiet_ok h).1
    exact ⟨p', p'.flags, _, ⟨pl, v, hpl, hput⟩,
      (Process.putPlace_keeps hput).1 ▸ Form.flagsWritten_refl _ _, rfl⟩
  | combine w src f writesCarry =>
    obtain ⟨r, b, rfl, rfl⟩ := Process.combine_ok (quiet_ok h).1
    exact ⟨p.setReg r (f (p.reg r) b), _, _, ⟨.reg r, _, p.place_reg r, rfl⟩,
      Form.flagsWritten_addRegisterCarry _ _ _ _ _ _ _, rfl⟩
  | compare w src =>
    obtain ⟨r, b, -, rfl⟩ := Process.compareWith_ok (quiet_ok h).1
    exact ⟨p, _, _, rfl, Form.flagsWritten_compare w src p.flags (p.reg r) b, rfl⟩
  | modify l f =>
    obtain ⟨pl, v, p', hpl, -, hput, rfl⟩ := Process.modifyWord_ok (quiet_ok h).1
    exact ⟨p', p'.flags, _, ⟨pl, f v, hpl, hput⟩,
      (Process.putPlace_keeps hput).1 ▸ Form.flagsWritten_refl _ _, rfl⟩
  | multiply src =>
    obtain ⟨b, rfl⟩ := Process.multiplyBy_ok (quiet_ok h).1
    exact ⟨_, p.flags, _, ⟨_, _, rfl⟩, Form.flagsWritten_refl _ _, rfl⟩
  | divide opcode src =>
    obtain ⟨v, -, rfl⟩ := Process.divideBy_ok (quiet_ok h).1
    exact ⟨_, p.flags, _, ⟨_, _, rfl⟩, Form.flagsWritten_refl _ _, rfl⟩
  | jump target =>
    cases h
    exact ⟨p, p.flags, target, rfl, Form.flagsWritten_refl _ _, rfl⟩
  | jumpIfEqual target =>
    cases h
    refine ⟨p, p.flags, if p.flags.zero then target else p.pc + 2#32, rfl,
      Form.flagsWritten_refl _ _, ?_⟩
    cases p.flags.zero <;> rfl

/-- Only a syscall emits events (R70). -/
theorem ruleOf_events {c : Config} {i : Instr} {p q : Process} {es : List Event}
    (h : ruleOf c i p = .ok (q, es)) (hi : i ≠ .syscall) : es = [] := by
  rw [ruleOf_eq_form] at h
  cases hm : formOf c i with
  | call => exact absurd (formOf_eq_call hm) hi
  | copy | combine | compare | modify | multiply | divide | jump | jumpIfEqual =>
    rw [hm, Form.rule] at h
    exact (quiet_ok h).2

/-! ### A destination, written -/

theorem Dest.written_keeps {d : Dest} {p p' : Process} (h : d.Written p p') :
    p'.stream = p.stream ∧ p'.heapSize = p.heapSize ∧ p'.uid = p.uid ∧
      p'.loadIndex = p.loadIndex := by
  cases d with
  | nothing =>
    obtain rfl : p' = p := h
    simp
  | loc l =>
    obtain ⟨pl, v, -, hput⟩ := h
    obtain ⟨-, -, hrest⟩ := Process.putPlace_keeps hput
    exact hrest
  | pair =>
    obtain ⟨lo, hi, rfl⟩ := h
    simp

/-- A register outside the destination keeps its value. -/
theorem Dest.written_reg {d : Dest} {p p' : Process} {r : Reg} (h : d.Written p p')
    (hr : d.writesReg r = false) : p'.reg r = p.reg r := by
  cases d with
  | nothing =>
    obtain rfl : p' = p := h
    rfl
  | loc l =>
    obtain ⟨pl, v, hpl, hput⟩ := h
    rcases Process.place_ok hpl with ⟨r', rfl, rfl⟩ | ⟨a, rfl, rfl⟩ | ⟨r', rfl, rfl⟩
    · obtain rfl : p.setReg r' v = p' := Except.ok.inj hput
      have hne : r'.word ≠ r.word := of_decide_eq_false hr
      exact p.reg_setReg_ne v fun he => hne (he ▸ rfl)
    all_goals
      rcases Process.putPlace_ok hput with ⟨_, hcell, -⟩ | ⟨_, -, -, rfl⟩
      · cases hcell
      · rfl
  | pair =>
    obtain ⟨lo, hi, rfl⟩ := h
    have hne : r ≠ .r0 ∧ r ≠ .r3 := by simpa [Dest.writesReg] using hr
    rw [Process.reg_setReg_ne _ _ hne.2, Process.reg_setReg_ne _ _ hne.1]

/-- The heap is as before, or one word of it, inside HEAP_SIZE and at the destination's address, has been
written. -/
theorem Dest.written_heap {d : Dest} {p p' : Process} (h : d.Written p p') :
    p'.heap = p.heap ∨
      ∃ l a v, d.storeLoc = some l ∧ p.place l = .ok (.cell a) ∧ a.toNat < p.heapSize ∧
        p'.heap = p.heap.write a.toNat v := by
  cases d with
  | nothing =>
    obtain rfl : p' = p := h
    exact .inl rfl
  | loc l =>
    obtain ⟨pl, v, hpl, hput⟩ := h
    rcases Process.putPlace_ok hput with ⟨r, rfl, rfl⟩ | ⟨a, rfl, ha, rfl⟩
    · exact .inl rfl
    · refine .inr ⟨l, a, v, ?_, hpl, ha, rfl⟩
      rcases Process.place_ok hpl with ⟨_, -, hreg⟩ | ⟨_, rfl, -⟩ | ⟨_, rfl, -⟩
      · cases hreg
      · rfl
      · rfl
  | pair =>
    obtain ⟨lo, hi, rfl⟩ := h
    exact .inl rfl

end Sys2Proof.Machine

/-! PROOFS. Multiply and divide (R120 to R125). Both read a source and write the pair, so what they do is said
once for a source, in two cases in the order of the checks: the source cannot be read, the pair is written;
for divide a third, the zero divisor, stands between them. -/

namespace Sys2Proof.Machine

/-! ### The pair of words -/

theorem mulResult_lo_toNat (k : Nat) (a b : Word) :
    (mulResult k a b).1.toNat = (a.toNat * b.toNat % k) % 2 ^ 32 := trunc32_toNat _

theorem mulResult_hi_toNat (k : Nat) (a b : Word) :
    (mulResult k a b).2.toNat = (a.toNat * b.toNat / k) % 2 ^ 32 := trunc32_toNat _

/-- With `K = 2^32` the pair is the exact product: its high part is below `2^32` (R125). -/
theorem mulResult_exact (a b : Word) :
    (mulResult (2 ^ 32) a b).2.toNat * 2 ^ 32 + (mulResult (2 ^ 32) a b).1.toNat =
      a.toNat * b.toNat := by
  have hlt : a.toNat * b.toNat < 2 ^ 32 * 2 ^ 32 := Nat.mul_lt_mul'' a.isLt b.isLt
  rw [mulResult_lo_toNat, mulResult_hi_toNat]
  omega

theorem divResult_quotient_toNat (k : Nat) (hi lo v : Word) :
    (divResult k hi lo v).1.toNat = ((hi.toNat * k + lo.toNat) / v.toNat) % 2 ^ 32 :=
  trunc32_toNat _

theorem toNat_pos_of_ne_zero {v : Word} (hv : v ≠ 0#32) : 0 < v.toNat :=
  Nat.pos_of_ne_zero fun h => hv (BitVec.eq_of_toNat_eq h)

/-- The remainder is below the divisor, so it is a word. -/
theorem divResult_remainder_toNat (k : Nat) (hi lo : Word) {v : Word} (hv : v ≠ 0#32) :
    (divResult k hi lo v).2.toNat = (hi.toNat * k + lo.toNat) % v.toNat :=
  (trunc32_toNat _).trans
    (Nat.mod_eq_of_lt ((Nat.mod_lt _ (toNat_pos_of_ne_zero hv)).trans v.isLt))

@[simp] theorem RegFile.get_pair_r0 (f : RegFile) (lo hi : Word) :
    ((f.set .r0 lo).set .r3 hi).get .r0 = lo := rfl

@[simp] theorem RegFile.get_pair_r3 (f : RegFile) (lo hi : Word) :
    ((f.set .r0 lo).set .r3 hi).get .r3 = hi := rfl

/-! ### A multiply and a divide, case by case -/

/-- A multiply reads its source and writes the pair. -/
theorem Process.multiplyBy_eq (k : Nat) (src : Source) (p : Process) :
    Process.multiplyBy k src p = (do
      let b ← p.sourceWord src
      return p.setPair (mulResult k (p.reg .r0) b)) := by
  simp [Process.multiplyBy, Process.sourceWord]

/-- A divide reads its source, rejects a zero divisor, and writes the pair. -/
theorem Process.divideBy_eq (k : Nat) (opcode : Word) (src : Source) (p : Process) :
    Process.divideBy k opcode src p = (do
      let v ← p.sourceWord src
      if v = 0#32 then .error ⟨.divideByZero, opcode⟩
      else return p.setPair (divResult k (p.reg .r3) (p.reg .r0) v)) := by
  simp [Process.divideBy, Process.sourceWord]

section
variable {i : Instr} {s : State} {p : Process} {src : Source} {opcode : Word}

theorem exec_multiply_bad_source {c : Cause} {info : Word}
    (hi : ruleOf s.cfg i = quiet (Process.multiplyBy s.cfg.mulSplit src)) (hp : s.current = some p)
    (hb : p.sourceWord src = .error ⟨c, info⟩) : exec i s = .next (s.abortedBy c info) :=
  exec_of_rule_error hi hp (by simp [Process.multiplyBy_eq, hb])

/-- A multiply that answers writes the two parts of the product, and pc. -/
theorem exec_multiply {b : Word}
    (hi : ruleOf s.cfg i = quiet (Process.multiplyBy s.cfg.mulSplit src)) (hp : s.current = some p)
    (hb : p.sourceWord src = .ok b) :
    ∃ lo hi : Word,
      lo.toNat = ((p.reg .r0).toNat * b.toNat % s.cfg.mulSplit) % 2 ^ 32 ∧
      hi.toNat = ((p.reg .r0).toNat * b.toNat / s.cfg.mulSplit) % 2 ^ 32 ∧
      (s.cfg.mulSplit = 2 ^ 32 → hi.toNat * 2 ^ 32 + lo.toNat = (p.reg .r0).toNat * b.toNat) ∧
      exec i s = .next (s.setCurrent
        { p with regs := (p.regs.set .r0 lo).set .r3 hi, pc := p.pc + 2#32 }) := by
  have hmultiply : Process.multiplyBy s.cfg.mulSplit src p =
      .ok (p.setPair (mulResult s.cfg.mulSplit (p.reg .r0) b)) := by
    simp [Process.multiplyBy_eq, hb]
  refine ⟨_, _, mulResult_lo_toNat _ _ _, mulResult_hi_toNat _ _ _, fun hk => ?_,
    exec_of_rule_ok hi hp hmultiply⟩
  rw [hk]
  exact mulResult_exact _ _

theorem exec_divide_bad_source {c : Cause} {info : Word}
    (hi : ruleOf s.cfg i = quiet (Process.divideBy s.cfg.mulSplit opcode src))
    (hp : s.current = some p) (hv : p.sourceWord src = .error ⟨c, info⟩) :
    exec i s = .next (s.abortedBy c info) :=
  exec_of_rule_error hi hp (by simp [Process.divideBy_eq, hv])

theorem exec_divide_by_zero
    (hi : ruleOf s.cfg i = quiet (Process.divideBy s.cfg.mulSplit opcode src))
    (hp : s.current = some p) (hv : p.sourceWord src = .ok 0#32) :
    exec i s = .next (s.abortedBy .divideByZero opcode) :=
  exec_of_rule_error hi hp (by simp [Process.divideBy_eq, hv])

/-- A divide that answers writes the quotient and the remainder, and pc. -/
theorem exec_divide {v : Word}
    (hi : ruleOf s.cfg i = quiet (Process.divideBy s.cfg.mulSplit opcode src))
    (hp : s.current = some p) (hv : p.sourceWord src = .ok v) (hne : v ≠ 0#32) :
    ∃ quo rem : Word,
      quo.toNat = (((p.reg .r3).toNat * s.cfg.mulSplit + (p.reg .r0).toNat) / v.toNat) % 2 ^ 32 ∧
      rem.toNat = ((p.reg .r3).toNat * s.cfg.mulSplit + (p.reg .r0).toNat) % v.toNat ∧
      exec i s = .next (s.setCurrent
        { p with regs := (p.regs.set .r0 quo).set .r3 rem, pc := p.pc + 2#32 }) := by
  have hdivide : Process.divideBy s.cfg.mulSplit opcode src p =
      .ok (p.setPair (divResult s.cfg.mulSplit (p.reg .r3) (p.reg .r0) v)) := by
    simp [Process.divideBy_eq, hv, hne]
  exact ⟨_, _, divResult_quotient_toNat _ _ _ _, divResult_remainder_toNat _ _ _ hne,
    exec_of_rule_ok hi hp hdivide⟩

end

/-! ### The statements -/

/-- Settles O19: `x[0]` multiplied by an immediate or by a register. -/
theorem multipliesStoreTheProductInThePair : Obligations.MultipliesStoreTheProductInThePair := by
  unfold Obligations.MultipliesStoreTheProductInThePair
  refine ⟨⟨fun _ => rfl, fun s p v hp => ?value⟩, fun _ => rfl, fun s p r hp => ?register,
    fun s p w hp hw => ?badReg⟩
  case value => exact exec_multiply rfl hp (p.sourceWord_value v)
  case register => exact exec_multiply rfl hp (p.sourceWord_reg r)
  case badReg =>
    exact exec_multiply_bad_source rfl hp (Process.sourceWord_loc_bad (p.place_reg_bad hw))

/-- Settles O20: the pair divided by an immediate or by a register; the divisor is read, then tested. -/
theorem dividesSplitThePairIntoQuotientAndRemainder :
    Obligations.DividesSplitThePairIntoQuotientAndRemainder := by
  unfold Obligations.DividesSplitThePairIntoQuotientAndRemainder
  refine ⟨⟨fun _ => rfl, fun s p v hp hv => ?value, fun s p hp => ⟨?valueZero, rfl⟩⟩,
    fun _ => rfl, fun s p r hp hv => ?register, fun s p w hp hw => ?badReg,
    fun s p r hp hv => ?registerZero⟩
  case value => exact exec_divide rfl hp (p.sourceWord_value v) hv
  case valueZero => exact exec_divide_by_zero rfl hp (p.sourceWord_value 0#32)
  case register => exact exec_divide rfl hp (p.sourceWord_reg r) hv
  case badReg =>
    exact exec_divide_bad_source rfl hp (Process.sourceWord_loc_bad (p.place_reg_bad hw))
  case registerZero => exact exec_divide_by_zero rfl hp (hv ▸ p.sourceWord_reg r)

/-- Settles O21: the divide finds the exact product in the pair, and divides it by one of its factors. -/
theorem multiplyThenDivideRestores : Obligations.MultiplyThenDivideRestores := by
  unfold Obligations.MultiplyThenDivideRestores
  intro s p v hp hk hv
  obtain ⟨lo, hi, -, -, hproduct, hmul⟩ :=
    exec_multiply (i := .mulValue v) rfl hp (p.sourceWord_value v)
  have hp' := State.current_setCurrent hp
    { p with regs := (p.regs.set .r0 lo).set .r3 hi, pc := p.pc + 2#32 }
  obtain ⟨quo, rem, hquo, hrem, hdiv⟩ :=
    exec_divide (i := .divValue v) rfl hp' (Process.sourceWord_value _ v) hv
  refine ⟨_, _, _, hmul, hdiv, State.current_setCurrent hp' _, ?quotient, ?remainder, rfl⟩
  all_goals
    simp only [Process.reg, State.setCurrent_cfg, hk, RegFile.get_pair_r0, RegFile.get_pair_r3]
      at hquo hrem hproduct ⊢
    rw [hproduct trivial] at hquo hrem
    apply BitVec.eq_of_toNat_eq
  case quotient =>
    rw [hquo, Nat.mul_div_cancel _ (toNat_pos_of_ne_zero hv), Nat.mod_eq_of_lt (BitVec.isLt _)]
  case remainder => simpa using hrem

end Sys2Proof.Machine

/-! PROOFS. Call 0 of the syscall dispatcher (R71): the three cases of its range of heap words. -/

namespace Sys2Proof.Machine

theorem exec_syscall_of_dispatchCall_error {s : State} {p : Process} {c : Cause} {info : Word}
    (hp : s.current = some p) (hcall : p.dispatchCall = .error ⟨c, info⟩) :
    exec .syscall s = .next (s.abortedBy c info) := by
  have hrule : ruleOf s.cfg .syscall p = .error ⟨c, info⟩ := by simp [ruleOf, hcall]
  rw [exec_of_current hp, hrule]
  rfl

theorem Process.dispatchCall_text {p : Process} (h : p.reg .r0 = 0#32) :
    p.dispatchCall = p.writeText := by
  simp [Process.dispatchCall, h]

section
variable {p : Process}

theorem Process.writeText_empty (h : (p.reg .r2).toNat ≤ (p.reg .r1).toNat) :
    p.writeText = .ok [.text []] := if_pos h

theorem Process.writeText_range (h : (p.reg .r1).toNat < (p.reg .r2).toNat)
    (hsize : (p.reg .r2).toNat ≤ p.heapSize) :
    p.writeText =
      .ok [.text (p.heapRange (p.reg .r1).toNat ((p.reg .r2).toNat - (p.reg .r1).toNat))] := by
  simp only [Process.writeText, ge_iff_le, gt_iff_lt, Nat.not_le.mpr h, Nat.not_lt.mpr hsize,
    if_false]

theorem Process.writeText_bad (h : (p.reg .r1).toNat < (p.reg .r2).toNat)
    (hsize : p.heapSize < (p.reg .r2).toNat) :
    p.writeText = .error ⟨.heapBounds, trunc32 (max (p.reg .r1).toNat p.heapSize)⟩ := by
  simp only [Process.writeText, ge_iff_le, gt_iff_lt, Nat.not_le.mpr h, hsize, if_false, if_true]

end

@[simp] theorem Process.heapRange_length (p : Process) (lo n : Nat) :
    (p.heapRange lo n).length = n := by
  simp [Process.heapRange]

theorem Process.heapRange_getElem? (p : Process) (lo : Nat) {n k : Nat} (hk : k < n) :
    (p.heapRange lo n)[k]? = some (p.heapWord (lo + k)) := by
  simp [Process.heapRange, hk]

/-- Settles O5: the range is empty or inverted, inside the heap, or past it. The index reported is a word,
since the range's end is one. -/
theorem syscallWritesText : Obligations.SyscallWritesText := by
  unfold Obligations.SyscallWritesText
  refine ⟨rfl, fun s p hp hcall hrange => ?empty, fun s p hp hcall hrange hsize => ?inside,
    fun s p hp hcall hrange hsize => ?past⟩
  case empty =>
    exact exec_syscall_of_dispatchCall_ok hp
      ((Process.dispatchCall_text hcall).trans (Process.writeText_empty hrange))
  case inside =>
    refine ⟨_, exec_syscall_of_dispatchCall_ok hp
      ((Process.dispatchCall_text hcall).trans (Process.writeText_range hrange hsize)),
      p.heapRange_length _ _, fun k hk => ?_⟩
    exact p.heapRange_getElem? _ (by simpa using hk)
  case past =>
    refine ⟨_, ?_, exec_syscall_of_dispatchCall_error hp
      ((Process.dispatchCall_text hcall).trans (Process.writeText_bad hrange hsize)), rfl⟩
    have hword := (p.reg .r2).isLt
    rw [trunc32_toNat, Nat.mod_eq_of_lt (by omega)]

end Sys2Proof.Machine

/-! PROOFS. Two moves in a row, and instructions whose operands name one place twice (R44): what they do is
read off from the case of the shared operation that they are. -/

namespace Sys2Proof.Machine

/-- Settles O13: the store writes the heap word that the load then reads. -/
theorem storeThenLoadGivesTheWordBack : Obligations.StoreThenLoadGivesTheWordBack := by
  unfold Obligations.StoreThenLoadGivesTheWordBack
  intro s p a r r' hp hwf ha
  have hstore := exec_copy_to_cell (i := .movRegisterToMemory a r.word) rfl hp
    (p.place_mem a) (p.sourceWord_reg r) ha
  have hp' := State.current_setCurrent hp
    { p with heap := p.heap.write a.toNat (p.reg r), pc := p.pc + 3#32 }
  have hload := exec_copy_to_register (i := .movMemoryToRegister r'.word a) rfl hp'
    (Process.sourceWord_cell (Process.place_mem _ a) ha)
  refine ⟨_, _, _, hstore, hload, State.current_setCurrent hp' _, ?loaded, ?stored, ?others⟩
  case loaded =>
    exact (RegFile.get_set_self _ _ _).trans (Memory.read_write_self hwf a.toNat (p.reg r))
  case stored => exact Memory.read_write_self hwf a.toNat (p.reg r)
  case others => exact fun b hb => Memory.read_write_ne p.heap _ hb

/-- Writing a word where it already stands leaves every word of a canonical memory. -/
theorem Memory.read_write_read {m : Memory} (hm : m.wf = true) (a b : Nat) :
    (m.write a (m.read a)).read b = m.read b := by
  by_cases h : b = a
  · rw [h, Memory.read_write_self hm]
  · exact Memory.read_write_ne m _ h

theorem addWord_self_toNat (a : Word) : (addWord a a).toNat = 2 * a.toNat % 2 ^ 32 := by
  rw [addWord_toNat, Nat.two_mul]

theorem subWord_self (a : Word) : subWord a a = 0#32 := by
  apply BitVec.eq_of_toNat_eq
  have h := subWord_toNat a a
  simp only [Int.sub_self, Int.zero_emod, Nat.cast_eq_zero] at h
  exact h

/-- Settles O31: each instruction is a case of its shared operation, whose result is a function of the
process as it was before. -/
theorem readsComeBeforeWrites : Obligations.ReadsComeBeforeWrites := by
  unfold Obligations.ReadsComeBeforeWrites
  intro s p r a hp
  refine ⟨?moveSelf, fun hwf ha => ?copySelf, ?double, ?zero,
    fun hk => ⟨?square, ?byHigh, fun d hd hne => ?divide⟩⟩
  case moveSelf =>
    have h := exec_copy_to_register (i := .movRegisterToRegister r.word r.word) rfl hp
      (p.sourceWord_reg r)
    rwa [Process.reg, RegFile.set_get_self] at h
  case copySelf =>
    exact ⟨_, _, exec_copy_to_cell rfl hp (p.place_mem a)
      (Process.sourceWord_cell (p.place_mem a) ha) ha, State.current_setCurrent hp _, rfl,
      Memory.read_write_read hwf a.toNat⟩
  case double =>
    refine ⟨_, _, exec_combine rfl hp (p.sourceWord_reg r), State.current_setCurrent hp _, ?_⟩
    rw [Process.reg, RegFile.get_set_self, addWord_self_toNat]
  case zero =>
    refine ⟨_, _, exec_combine rfl hp (p.sourceWord_reg r), State.current_setCurrent hp _, ?_⟩
    rw [Process.reg, RegFile.get_set_self, subWord_self]
  case square =>
    obtain ⟨lo, hi, -, -, hproduct, hexec⟩ :=
      exec_multiply (i := .mulRegister Reg.r0.word) rfl hp (p.sourceWord_reg .r0)
    exact ⟨_, _, hexec, State.current_setCurrent hp _, hproduct hk⟩
  case byHigh =>
    obtain ⟨lo, hi, -, -, hproduct, hexec⟩ :=
      exec_multiply (i := .mulRegister Reg.r3.word) rfl hp (p.sourceWord_reg .r3)
    exact ⟨_, _, hexec, State.current_setCurrent hp _, hproduct hk⟩
  case divide =>
    obtain ⟨quo, rem, hquo, hrem, hexec⟩ :=
      exec_divide (i := .divRegister d.word) rfl hp (p.sourceWord_reg d) hne
    exact ⟨_, _, hexec, State.current_setCurrent hp _, hk ▸ hquo, hk ▸ hrem⟩

end Sys2Proof.Machine

/-! PROOFS. Frames over all instructions: what an instruction leaves alone, and what it does not look at. An
instruction that answers has raised and left its process alone, or its rule has answered, and then
`Form.rule_ok` says what the rule has written. -/

namespace Sys2Proof.Machine

/-! ### The process after an instruction -/

/-- The process at the cursor after an instruction: as before when the rule raises, and else as the rule
leaves it. -/
theorem exec_current {i : Instr} {s t : State} {p q : Process} (h : exec i s = .next t)
    (hp : s.current = some p) (hq : t.current = some q) :
    (∃ r, ruleOf s.cfg i p = .error r ∧ t = s.raise r ∧ q = p) ∨
      (∃ es, ruleOf s.cfg i p = .ok (q, es) ∧ t = (s.setCurrent q).console es) := by
  obtain ⟨p', hp', ⟨q', es, hrule, rfl⟩ | ⟨r, hrule, rfl⟩⟩ := exec_next h
  all_goals obtain rfl : p = p' := Option.some.inj (hp.symm.trans hp')
  · rw [State.current_console, State.current_setCurrent hp] at hq
    obtain rfl : q' = q := Option.some.inj hq
    exact .inr ⟨es, hrule, rfl⟩
  · rw [State.current_raise, hp] at hq
    exact .inl ⟨r, hrule, rfl, (Option.some.inj hq).symm⟩

/-- Everything a rule can do when it answers, by the instruction's form. -/
theorem ruleOf_ok {c : Config} {i : Instr} {p q : Process} {es : List Event}
    (h : ruleOf c i p = .ok (q, es)) :
    ∃ p' g t, (formOf c i).dest.Written p p' ∧ (formOf c i).FlagsWritten p.flags g ∧
      q = (p'.setFlags g).jumpTo t :=
  Form.rule_ok (ruleOf_eq_form c i ▸ h)

theorem ruleOf_keeps_creation {c : Config} {i : Instr} {p q : Process} {es : List Event}
    (h : ruleOf c i p = .ok (q, es)) :
    q.stream = p.stream ∧ q.heapSize = p.heapSize ∧ q.uid = p.uid ∧ q.loadIndex = p.loadIndex := by
  obtain ⟨p', g, t, hdest, -, rfl⟩ := ruleOf_ok h
  have hkeeps := Dest.written_keeps hdest
  exact hkeeps

/-! ### What an instruction leaves alone -/

/-- Settles O24: a register that the instruction does not write is outside its form's destination. -/
theorem registerFrame : Obligations.RegisterFrame := by
  unfold Obligations.RegisterFrame
  intro i s t p q r hexec hp hq hr
  rcases exec_current hexec hp hq with ⟨e, -, -, rfl⟩ | ⟨es, hrule, -⟩
  · rfl
  · obtain ⟨p', g, u, hdest, -, rfl⟩ := ruleOf_ok hrule
    rw [writesReg_eq_form s.cfg] at hr
    have hreg := Dest.written_reg hdest hr
    exact hreg

/-- Settles O25: the one word that may have been written is at the address of the instruction's
location. -/
theorem heapFrame : Obligations.HeapFrame := by
  unfold Obligations.HeapFrame
  intro i s t p q hexec hp hq
  rcases exec_current hexec hp hq with ⟨e, -, -, rfl⟩ | ⟨es, hrule, -⟩
  · exact ⟨fun _ _ _ _ _ _ => rfl, fun _ _ => rfl⟩
  · obtain ⟨p', g, u, hdest, -, rfl⟩ := ruleOf_ok hrule
    rw [storeLoc_eq_form s.cfg]
    rcases Dest.written_heap hdest with hsame | ⟨l', a', v, hl', ha', -, hwrite⟩
    · have hword : ∀ b, p'.heapWord b = p.heapWord b := fun b => congrArg (Memory.read · b) hsame
      exact ⟨fun _ _ _ _ b _ => hword b, fun _ => hword⟩
    · refine ⟨fun l a hl ha b hb => ?_, fun hnone => ?_⟩
      · obtain rfl : l' = l := Option.some.inj (hl'.symm.trans hl)
        obtain rfl : a' = a := by simpa [ha'] using ha
        exact (congrArg (Memory.read · b) hwrite).trans (Memory.read_write_ne p.heap v hb)
      · simp [hnone] at hl'

/-- Settles O26: an instruction writes the flags that its form writes. -/
theorem flagFrame : Obligations.FlagFrame := by
  unfold Obligations.FlagFrame
  intro i s t p q hexec hp hq
  rw [isCompare_eq_form s.cfg, writesCarry_eq_form]
  rcases exec_current hexec hp hq with ⟨e, -, -, rfl⟩ | ⟨es, hrule, -⟩
  · exact Form.flagsWritten_refl _ _
  · obtain ⟨p', g, u, -, hflags, rfl⟩ := ruleOf_ok hrule
    exact hflags

/-- Settles O29: a raise sets MSTATE, ACAUSE and AVAL; a rule that answers changes the process at the
cursor, whose creation parameters it keeps, and appends its events. -/
theorem instructionsTouchOnlyTheirOwnProcess :
    Obligations.InstructionsTouchOnlyTheirOwnProcess := by
  unfold Obligations.InstructionsTouchOnlyTheirOwnProcess
  intro i s t hexec
  obtain ⟨p, hp, ⟨q, es, hrule, rfl⟩ | ⟨r, hrule, rfl⟩⟩ := exec_next hexec
  · refine ⟨rfl, rfl, rfl, rfl, rfl, List.length_set, fun k hk => ?others,
      ⟨es, rfl, ruleOf_events hrule⟩, .inl ⟨rfl, rfl, rfl⟩,
      p, q, hp, State.current_setCurrent hp q, ruleOf_keeps_creation hrule⟩
    case others => exact List.getElem?_set_ne hk.symm
  · exact ⟨rfl, rfl, rfl, rfl, rfl, rfl, fun _ _ => rfl, ⟨[], by simp⟩, .inr ⟨rfl, rfl, rfl⟩,
      p, p, hp, hp, rfl, rfl, rfl, rfl⟩

/-! ### What an instruction does not look at: the rest of the machine -/

/-- Settles O30: the rule sees the process and the parameters, and its answer decides. -/
theorem instructionsSeeOnlyTheirOwnProcess : Obligations.InstructionsSeeOnlyTheirOwnProcess := by
  unfold Obligations.InstructionsSeeOnlyTheirOwnProcess
  intro i s s' t p hrun hrun' hp hp' hcfg hexec
  rw [exec_of_current hp] at hexec
  rw [exec_of_current hp', hcfg]
  cases hrule : ruleOf s.cfg i p with
  | ok x =>
    obtain ⟨q, es⟩ := x
    obtain rfl : (s.setCurrent q).console es = t := by simpa [hrule] using hexec
    refine ⟨_, rfl, ?_, hrun'.trans hrun.symm, fun habort => ?_, es, rfl, rfl⟩
    · rw [State.current_console, State.current_console, State.current_setCurrent hp,
        State.current_setCurrent hp']
    · simp [hrun] at habort
  | error r =>
    obtain rfl : s.raise r = t := by simpa [hrule] using hexec
    exact ⟨_, rfl, hp'.trans hp.symm, rfl, fun _ => ⟨rfl, rfl⟩, [], by simp, by simp⟩

/-! ### What an instruction does not look at: the flags -/

section
variable (p : Process) (f : Flags)

@[simp] theorem Process.place_setFlags (l : Loc) : (p.setFlags f).place l = p.place l := by
  cases l <;> rfl

@[simp] theorem Process.sourceWord_setFlags (src : Source) :
    (p.setFlags f).sourceWord src = p.sourceWord src := by
  rcases src with v | l
  · rfl
  · cases l <;> rfl

@[simp] theorem Process.getPlace_setFlags (pl : Place) :
    (p.setFlags f).getPlace pl = p.getPlace pl := by
  cases pl <;> rfl

@[simp] theorem Process.putPlace_setFlags (pl : Place) (v : Word) :
    (p.setFlags f).putPlace pl v = (p.putPlace pl v).map (·.setFlags f) := by
  cases pl with
  | reg r => rfl
  | cell a =>
    rcases p.memWrite_spec a v with ⟨ha, hw⟩ | ⟨ha, hw⟩
    · rw [Process.putPlace_cell, Process.putPlace_cell, hw]
      exact Process.memWrite_ok v ha
    · rw [Process.putPlace_cell, Process.putPlace_cell, hw]
      exact Process.memWrite_bad v ha

@[simp] theorem Process.dispatchCall_setFlags : (p.setFlags f).dispatchCall = p.dispatchCall := rfl

end

/-- A rule's answer with the flags taken out. -/
def eraseFlags (x : Process × List Event) : Process × List Event :=
  (x.1.setFlags ⟨false, false, false⟩, x.2)

/-- Two answers that are equal but for flags are the same raise, or the same events with the same registers,
heap and pc. -/
theorem eraseFlags_eq {x y : Except Raise (Process × List Event)}
    (h : x.map eraseFlags = y.map eraseFlags) :
    (∃ r, x = .error r ∧ y = .error r) ∨
      ∃ q q' es, x = .ok (q, es) ∧ y = .ok (q', es) ∧
        q.regs = q'.regs ∧ q.heap = q'.heap ∧ q.pc = q'.pc := by
  cases x with
  | error r =>
    cases y with
    | error r' =>
      obtain rfl : r = r' := Except.error.inj h
      exact .inl ⟨r, rfl, rfl⟩
    | ok y => cases h
  | ok x =>
    cases y with
    | error r' => cases h
    | ok y =>
      obtain ⟨q, es⟩ := x
      obtain ⟨q', es'⟩ := y
      obtain ⟨hq, rfl⟩ : q.setFlags _ = q'.setFlags _ ∧ es = es' :=
        Prod.mk.inj (Except.ok.inj h)
      have hregs := congrArg Process.regs hq
      have hheap := congrArg Process.heap hq
      have hpc := congrArg Process.pc hq
      exact .inr ⟨q, q', es, rfl, rfl, hregs, hheap, hpc⟩

/-- A rule does the same whatever the flags, but that jump-if-equal sees `zero` (R16). -/
theorem Form.rule_setFlags (m : Form) (k : Nat) (p : Process) (f : Flags)
    (hz : ∀ target, m = .jumpIfEqual target → f.zero = p.flags.zero) :
    (m.rule k (p.setFlags f)).map eraseFlags = (m.rule k p).map eraseFlags := by
  cases m with
  | call =>
    simp only [Form.rule, Process.dispatchCall_setFlags]
    cases p.dispatchCall <;> rfl
  | copy dst src =>
    simp only [Form.rule, quiet, Process.copyWord_eq, Process.place_setFlags,
      Process.sourceWord_setFlags, Process.putPlace_setFlags]
    cases p.place dst with
    | error e => rfl
    | ok pl =>
      cases p.sourceWord src with
      | error e => rfl
      | ok v => cases hput : p.putPlace pl v <;> simp [hput] <;> rfl
  | combine w src f writesCarry =>
    simp only [Form.rule, quiet, Process.combine_eq, Process.sourceWord_setFlags]
    cases regOperand w with
    | error e => rfl
    | ok r => cases p.sourceWord src <;> rfl
  | compare w src =>
    simp only [Form.rule, quiet, Process.compareWith_eq, Process.sourceWord_setFlags]
    cases regOperand w with
    | error e => rfl
    | ok r => cases p.sourceWord src <;> rfl
  | modify l f =>
    simp only [Form.rule, quiet, Process.modifyWord, Process.place_setFlags,
      Process.getPlace_setFlags, Process.putPlace_setFlags]
    cases p.place l with
    | error e => rfl
    | ok pl =>
      cases hget : p.getPlace pl with
      | error e => simp [hget]
      | ok v => cases hput : p.putPlace pl (f v) <;> simp [hget, hput] <;> rfl
  | multiply src =>
    simp only [Form.rule, quiet, Process.multiplyBy_eq, Process.sourceWord_setFlags]
    cases p.sourceWord src <;> rfl
  | divide opcode src =>
    simp only [Form.rule, quiet, Process.divideBy_eq, Process.sourceWord_setFlags]
    cases p.sourceWord src with
    | error e => rfl
    | ok v =>
      by_cases hv : v = 0#32
      · simp [hv]
      · simp [hv]
        rfl
  | jump target => rfl
  | jumpIfEqual target =>
    simp only [Form.rule, quiet, Process.setFlags_flags, hz target rfl]
    cases p.flags.zero <;> rfl

/-- Settles O27: the rule's answer on the process with other flags is the same but for flags. -/
theorem onlyJumpIfEqualReadsAFlag : Obligations.OnlyJumpIfEqualReadsAFlag := by
  unfold Obligations.OnlyJumpIfEqualReadsAFlag
  intro i s t p f hp hz hexec
  have hp' : (s.setCurrent { p with flags := f }).current = some (p.setFlags f) :=
    State.current_setCurrent hp _
  have hsame := Form.rule_setFlags (formOf s.cfg i) s.cfg.mulSplit p f
    fun target hm => hz ⟨target, formOf_eq_jumpIfEqual hm⟩
  rw [exec_of_current hp] at hexec
  rw [exec_of_current hp', State.setCurrent_cfg]
  rw [← ruleOf_eq_form] at hsame
  rcases eraseFlags_eq hsame with ⟨r, hr', hr⟩ | ⟨q', q, es, hq', hq, hregs, hheap, hpc⟩
  · obtain rfl : s.raise r = t := by simpa [hr] using hexec
    rw [hr']
    refine ⟨_, rfl, rfl, rfl, rfl, rfl, fun q q' hq hq' => ?_⟩
    rw [State.current_raise, hp] at hq
    rw [State.current_raise, hp'] at hq'
    cases hq
    cases hq'
    exact ⟨rfl, rfl, rfl⟩
  · obtain rfl : (s.setCurrent q).console es = t := by simpa [hq] using hexec
    rw [hq']
    refine ⟨_, rfl, rfl, rfl, rfl, rfl, fun u u' hu hu' => ?_⟩
    rw [State.current_console, State.current_setCurrent hp] at hu
    rw [State.current_console, State.current_setCurrent hp'] at hu'
    cases hu
    cases hu'
    exact ⟨hregs, hheap, hpc⟩

end Sys2Proof.Machine

/-! PROOFS. What a rule raises (R162 to R164, R167). A rule first checks its register words, in operand order,
and only then meets the faults of the data: an address out of bounds, a zero divisor. -/

namespace Sys2Proof.Machine

/-! ### Register words of a form -/

/-- The register words of a location. -/
def Loc.regWords : Loc → List RegWord
  | .reg w => [w]
  | .mem _ => []
  | .memAt w => [w]

/-- The register words of a source. -/
def Source.regWords : Source → List RegWord
  | .value _ => []
  | .loc l => l.regWords

/-- The register words of a form, in the order in which its rule checks them. -/
def Form.regWords : Form → List RegWord
  | .copy dst src => dst.regWords ++ src.regWords
  | .combine w src _ _ => [w] ++ src.regWords
  | .compare w src => [w] ++ src.regWords
  | .modify l _ => l.regWords
  | .multiply src => src.regWords
  | .divide _ src => src.regWords
  | .call => []
  | .jump _ => []
  | .jumpIfEqual _ => []

/-- A rule checks the register operands in operand order. -/
theorem regOperands_eq_form (c : Config) (i : Instr) : i.regOperands = (formOf c i).regWords := by
  cases i <;> rfl

/-- The first illegal word of a list of register words (R167). -/
def firstBad (ws : List RegWord) : Option RegWord := ws.find? (fun w => !regWordOk w)

theorem badRegWord?_eq_form (c : Config) (i : Instr) :
    i.badRegWord? = firstBad (formOf c i).regWords := by
  rw [Instr.badRegWord?, regOperands_eq_form c, firstBad]

theorem badRegWord?_eq_none_of_wellFormed {i : Instr} (h : i.wellFormed = true) :
    i.badRegWord? = none := by
  simpa [Instr.wellFormed, Instr.badRegWord?] using h

theorem firstBad_append (ws ws' : List RegWord) :
    firstBad (ws ++ ws') = (firstBad ws).or (firstBad ws') := List.find?_append

theorem firstBad_word (r : Reg) : firstBad [r.word] = none := by
  simp [firstBad, regWordOk, r.word_toNat_lt]

theorem firstBad_bad {w : RegWord} (h : 6 ≤ w.toNat) : firstBad [w] = some w := by
  simp [firstBad, regWordOk, h]

/-! ### Faults of the data -/

/-- The raise is for an address or a divisor, and not for an operand word. -/
def Raise.OfData (e : Raise) : Prop := e.cause = .heapBounds ∨ e.cause = .divideByZero

/-- The computation raises for data only. -/
def RaisesForData {α : Type} (x : Except Raise α) : Prop := ∀ e, x = .error e → e.OfData

/-- The computation checks the register words `ws` and does nothing else: it raises for the first illegal
one, and answers when there is none. -/
def ChecksWords {α : Type} (ws : List RegWord) (x : Except Raise α) : Prop :=
  (∀ w, firstBad ws = some w → x = .error ⟨.badRegister, w⟩) ∧
    (firstBad ws = none → ∃ a, x = .ok a)

/-- The computation raises for the first illegal one of the register words `ws`, and for data only when
there is none. -/
def ChecksWordsFirst {α : Type} (ws : List RegWord) (x : Except Raise α) : Prop :=
  (∀ w, firstBad ws = some w → x = .error ⟨.badRegister, w⟩) ∧
    (firstBad ws = none → RaisesForData x)

section
variable {α β : Type} {ws ws' : List RegWord} {x : Except Raise α} {f : α → Except Raise β}

theorem raisesForData_ok (a : α) : RaisesForData (.ok a : Except Raise α) := fun _ h => by cases h

theorem raisesForData_bind (hx : RaisesForData x) (hf : ∀ a, RaisesForData (f a)) :
    RaisesForData (x >>= f) := by
  intro e he
  rcases except_bind_eq_error.mp he with he | ⟨a, -, he⟩
  · exact hx e he
  · exact hf a e he

theorem checksWordsFirst_nil (hx : RaisesForData x) : ChecksWordsFirst [] x :=
  ⟨fun _ h => (by cases h), fun _ => hx⟩

/-- A check of register words and then one that begins with other words. -/
theorem ChecksWords.bind (hx : ChecksWords ws x) (hf : ∀ a, ChecksWordsFirst ws' (f a)) :
    ChecksWordsFirst (ws ++ ws') (x >>= f) := by
  unfold ChecksWordsFirst
  rw [firstBad_append]
  cases hbad : firstBad ws with
  | some w =>
    rw [hx.1 w hbad]
    refine ⟨fun w' hw' => ?_, fun h => (by cases h)⟩
    obtain rfl : w = w' := Option.some.inj hw'
    rfl
  | none =>
    obtain ⟨a, rfl⟩ := hx.2 hbad
    exact hf a

/-- A check of register words and then what raises for data only. -/
theorem ChecksWords.bind_data (hx : ChecksWords ws x) (hf : ∀ a, RaisesForData (f a)) :
    ChecksWordsFirst ws (x >>= f) := by
  have h := hx.bind fun a => checksWordsFirst_nil (hf a)
  rwa [List.append_nil] at h

theorem ChecksWords.map {g : α → β} (hx : ChecksWords ws x) :
    ChecksWords ws (x >>= fun a => .ok (g a)) := by
  refine ⟨fun w hw => by rw [hx.1 w hw]; rfl, fun hnone => ?_⟩
  obtain ⟨a, rfl⟩ := hx.2 hnone
  exact ⟨g a, rfl⟩

theorem ChecksWordsFirst.quiet {g : Process → Except Raise Process} {p : Process}
    (h : ChecksWordsFirst ws (g p)) : ChecksWordsFirst ws (quiet g p) :=
  ⟨fun w hw => by simp only [Machine.quiet, h.1 w hw], fun hnone e he => h.2 hnone e (quiet_error he)⟩

/-- No computation raises without a cause. -/
theorem ChecksWordsFirst.cause_ne_none (h : ChecksWordsFirst ws x) {e : Raise} (he : x = .error e) :
    e.cause ≠ .none := by
  cases hbad : firstBad ws with
  | some w =>
    rw [h.1 w hbad] at he
    cases he
    exact Cause.noConfusion
  | none =>
    rcases h.2 hbad e he with hc | hc <;> rw [hc] <;> exact Cause.noConfusion

end

/-! ### The parts of a rule -/

theorem regOperand_checksWords (w : RegWord) : ChecksWords [w] (regOperand w) := by
  rcases Reg.word_cases w with ⟨r, rfl⟩ | hw
  · rw [ChecksWords, firstBad_word, regOperand_word]
    exact ⟨fun _ h => (by cases h), fun _ => ⟨r, rfl⟩⟩
  · rw [ChecksWords, firstBad_bad hw, regOperand_bad hw]
    exact ⟨fun w' h => by cases h; rfl, fun h => (by cases h)⟩

section
variable (p : Process)

theorem Process.place_checksWords (l : Loc) : ChecksWords l.regWords (p.place l) := by
  cases l with
  | reg w => exact (regOperand_checksWords w).map
  | mem a => exact ⟨fun _ h => (by cases h), fun _ => ⟨_, p.place_mem a⟩⟩
  | memAt w => exact (regOperand_checksWords w).map

theorem Process.datum_checksWords (src : Source) : ChecksWords src.regWords (p.datum src) := by
  cases src with
  | value v => exact ⟨fun _ h => (by cases h), fun _ => ⟨_, p.datum_value v⟩⟩
  | loc l => exact (p.place_checksWords l).map

theorem Process.memRead_raisesForData (a : Word) : RaisesForData (p.memRead a) := by
  intro e he
  rcases p.memRead_spec a with ⟨-, h⟩ | ⟨-, h⟩ <;> rw [h] at he <;> cases he
  exact .inl rfl

theorem Process.memWrite_raisesForData (a v : Word) : RaisesForData (p.memWrite a v) := by
  intro e he
  rcases p.memWrite_spec a v with ⟨-, h⟩ | ⟨-, h⟩ <;> rw [h] at he <;> cases he
  exact .inl rfl

theorem Process.getPlace_raisesForData (pl : Place) : RaisesForData (p.getPlace pl) := by
  cases pl with
  | reg r => exact raisesForData_ok _
  | cell a => exact p.memRead_raisesForData a

theorem Process.getDatum_raisesForData (x : Datum) : RaisesForData (p.getDatum x) := by
  cases x with
  | value v => exact raisesForData_ok _
  | place pl => exact p.getPlace_raisesForData pl

theorem Process.putPlace_raisesForData (pl : Place) (v : Word) :
    RaisesForData (p.putPlace pl v) := by
  cases pl with
  | reg r => exact raisesForData_ok _
  | cell a => exact p.memWrite_raisesForData a v

theorem Process.dispatchCall_raisesForData : RaisesForData p.dispatchCall := by
  intro e he
  unfold Process.dispatchCall at he
  split at he
  · simp only [Process.writeText] at he
    split at he
    · cases he
    · split at he <;> cases he
      exact .inl rfl
  · cases he
  · cases he

end

/-! ### Every rule -/

/-- Every rule checks its register words first (R167). -/
theorem Form.rule_checksWordsFirst (m : Form) (k : Nat) (p : Process) :
    ChecksWordsFirst m.regWords (m.rule k p) := by
  cases m with
  | call =>
    exact checksWordsFirst_nil
      (raisesForData_bind p.dispatchCall_raisesForData fun _ => raisesForData_ok _)
  | copy dst src =>
    refine ChecksWordsFirst.quiet ((p.place_checksWords dst).bind fun pl =>
      (p.datum_checksWords src).bind_data fun x => ?_)
    exact raisesForData_bind (p.getDatum_raisesForData x) fun v =>
      raisesForData_bind (p.putPlace_raisesForData pl v) fun _ => raisesForData_ok _
  | combine w src f writesCarry =>
    exact ChecksWordsFirst.quiet ((regOperand_checksWords w).bind fun r =>
      (p.datum_checksWords src).bind_data fun x =>
        raisesForData_bind (p.getDatum_raisesForData x) fun _ => raisesForData_ok _)
  | compare w src =>
    exact ChecksWordsFirst.quiet ((regOperand_checksWords w).bind fun r =>
      (p.datum_checksWords src).bind_data fun x =>
        raisesForData_bind (p.getDatum_raisesForData x) fun _ => raisesForData_ok _)
  | modify l f =>
    refine ChecksWordsFirst.quiet ((p.place_checksWords l).bind_data fun pl => ?_)
    exact raisesForData_bind (p.getPlace_raisesForData pl) fun v =>
      raisesForData_bind (p.putPlace_raisesForData pl (f v)) fun _ => raisesForData_ok _
  | multiply src =>
    exact ChecksWordsFirst.quiet ((p.datum_checksWords src).bind_data fun x =>
      raisesForData_bind (p.getDatum_raisesForData x) fun _ => raisesForData_ok _)
  | divide opcode src =>
    refine ChecksWordsFirst.quiet ((p.datum_checksWords src).bind_data fun x =>
      raisesForData_bind (p.getDatum_raisesForData x) fun v e he => ?_)
    split at he <;> cases he
    exact .inr rfl
  | jump target => exact checksWordsFirst_nil (raisesForData_ok _)
  | jumpIfEqual target => exact checksWordsFirst_nil (raisesForData_ok _)

theorem ruleOf_checksWordsFirst (c : Config) (i : Instr) (p : Process) :
    ChecksWordsFirst (formOf c i).regWords (ruleOf c i p) :=
  ruleOf_eq_form c i ▸ (formOf c i).rule_checksWordsFirst c.mulSplit p

theorem ruleOf_error_cause_ne_none {c : Config} {i : Instr} {p : Process} {e : Raise}
    (h : ruleOf c i p = .error e) : e.cause ≠ .none :=
  (ruleOf_checksWordsFirst c i p).cause_ne_none h

/-- Settles O32: a rule checks its register words first, and with legal ones raises for data only. -/
theorem illFormedInstructionsRaiseBadRegister :
    Obligations.IllFormedInstructionsRaiseBadRegister := by
  unfold Obligations.IllFormedInstructionsRaiseBadRegister
  refine ⟨fun i s p w hp hbad => ⟨?raises, rfl⟩, fun i s t hcause hwf hexec => ?legal⟩
  case raises =>
    rw [badRegWord?_eq_form s.cfg] at hbad
    rw [exec_of_current hp, (ruleOf_checksWordsFirst s.cfg i p).1 w hbad]
    rfl
  case legal =>
    obtain ⟨p, -, ⟨q, es, -, rfl⟩ | ⟨r, hrule, rfl⟩⟩ := exec_next hexec
    · exact hcause
    · have hnone := badRegWord?_eq_none_of_wellFormed hwf
      rw [badRegWord?_eq_form s.cfg] at hnone
      rw [State.raise_acause]
      rcases (ruleOf_checksWordsFirst s.cfg i p).2 hnone r hrule with hc | hc <;>
        rw [hc] <;> exact Cause.noConfusion

end Sys2Proof.Machine

/-! PROOFS. One step of a machine with an executor step due: the process at the cursor executes and stays, or
executes and halts, or raises. Each of the three next states has a name here, and `step_run_cases` is
everything that a step in RUN can do. -/

namespace Sys2Proof.Machine

/-! ### The executor step on one process -/

/-- What one executor step makes of a process and emits, when nothing is raised: a process that is not live
is left as it is (D11), and else the rule of the instruction at pc has answered (R140, R141). -/
inductive Process.Executes (c : Config) (p : Process) : Process → List Event → Prop
  | dead (h : p.live = false) : Process.Executes c p p []
  | instr {i : Instr} {rest : List Word} {q : Process} {es : List Event}
      (hdecode : decode p.fetchWords = .instr i rest) (hrule : ruleOf c i p = .ok (q, es)) :
      Process.Executes c p q es

theorem State.setCurrent_self {s : State} {p : Process} (h : s.current = some p) :
    s.setCurrent p = s := by
  obtain ⟨hlt, rfl⟩ := List.getElem?_eq_some_iff.mp h
  simp [State.setCurrent]

theorem State.execStep_executes {s : State} {p q : Process} {es : List Event}
    (hp : s.current = some p) (h : p.Executes s.cfg q es) :
    s.execStep = .next ((s.setCurrent q).console es) := by
  cases h with
  | dead hdead =>
    rw [State.setCurrent_self hp, State.console_nil]
    simp [State.execStep, hp, hdead]
  | instr hdecode hrule => rw [State.execStep_instr hp hdecode, exec_of_current hp, hrule]

/-- Everything the executor step can do: it aborts the machine with a cause, or the process executes. -/
theorem State.execStep_cases {s t : State} (h : s.execStep = .next t) :
    ∃ p, s.current = some p ∧
      ((∃ c v, c ≠ .none ∧ t = s.abortedBy c v) ∨
        ∃ q es, p.Executes s.cfg q es ∧ t = (s.setCurrent q).console es) := by
  obtain ⟨p, hp, ⟨hdead, rfl⟩ | ⟨-, op, -, rfl⟩ | ⟨-, op, -, rfl⟩ | ⟨-, i, rest, hdecode, hexec⟩⟩ :=
    State.execStep_next h
  all_goals refine ⟨p, hp, ?_⟩
  · refine .inr ⟨p, [], .dead hdead, ?_⟩
    rw [State.setCurrent_self hp, State.console_nil]
  · exact .inl ⟨.unknownOpcode, op, Cause.noConfusion, rfl⟩
  · exact .inl ⟨.truncatedInstruction, op, Cause.noConfusion, rfl⟩
  · obtain ⟨p', hp', ⟨q, es, hrule, rfl⟩ | ⟨r, hrule, rfl⟩⟩ := exec_next hexec
    all_goals obtain rfl : p = p' := Option.some.inj (hp.symm.trans hp')
    · exact .inr ⟨q, es, .instr hdecode hrule, rfl⟩
    · exact .inl ⟨r.cause, r.info, ruleOf_error_cause_ne_none hrule, rfl⟩

/-! ### The accounting after it -/

/-- The process at the cursor is now `q`, which is live: the step is counted and the cursor advances
(R143, R145). -/
def State.stepped (s : State) (q : Process) (es : List Event) : State :=
  { s with
    pt := s.pt.set s.cur q
    out := s.out ++ es
    qstep := s.qstep + 1
    cur := (s.cur + 1) % s.pt.length }

/-- The process at the cursor is now `q`, which is not live: the step is counted, and the process leaves the
table (R143, R144). -/
def State.steppedOut (s : State) (q : Process) (es : List Event) : State :=
  { s with
    pt := s.pt.eraseIdx s.cur
    out := s.out ++ es
    qstep := s.qstep + 1
    cur := if s.cur + 1 = s.pt.length then 0 else s.cur
    halted := s.halted ++ [q] }

theorem State.current_executed {s : State} {p : Process} (hp : s.current = some p) (q : Process)
    (es : List Event) : ((s.setCurrent q).console es).current = some q :=
  State.current_setCurrent hp q

theorem State.account_stepped {s : State} {p q : Process} {es : List Event}
    (hp : s.current = some p) (hq : q.live = true) :
    ((s.setCurrent q).console es).account = s.stepped q es := by
  rw [State.account_of_current (State.current_executed hp q es), if_pos hq]
  simp [State.stepped, State.setCurrent, State.console]

theorem State.account_steppedOut {s : State} {p q : Process} {es : List Event}
    (hp : s.current = some p) (hq : q.live = false) :
    ((s.setCurrent q).console es).account = s.steppedOut q es := by
  have hlt := State.cur_lt_of_current hp
  have hwrap : s.pt.length - 1 ≤ s.cur ↔ s.cur + 1 = s.pt.length := by omega
  rw [State.account_of_current (State.current_executed hp q es), hq]
  simp [State.steppedOut, State.setCurrent, State.console, List.eraseIdx_set_eq,
    List.length_eraseIdx_of_lt hlt, hwrap]

/-! ### The whole step -/

/-- A step in RUN with a step left in the quantum is an executor step and its accounting. -/
theorem State.schedStep_of_execStep {s t : State} {p : Process} (hq : s.qstep ≠ s.cfg.quantum)
    (hp : s.current = some p) (h : s.execStep = .next t) (ht : t.mstate ≠ .aborted) :
    s.schedStep = .next t.account := by
  simp only [State.schedStep, State.pt_length_ne_zero_of_current hp, hq, h, ht, if_false]

theorem step_of_executes {s : State} {p q : Process} {es : List Event} (hr : s.Ready)
    (hp : s.current = some p) (h : p.Executes s.cfg q es) :
    step s = .next (if q.live then s.stepped q es else s.steppedOut q es) := by
  obtain ⟨hrun, hdue, hq⟩ := hr
  have hne : ((s.setCurrent q).console es).mstate ≠ .aborted := by simp [hrun]
  rw [step_of_none hdue, State.ownStep_run hrun,
    State.schedStep_of_execStep hq hp (State.execStep_executes hp h) hne]
  cases hlive : q.live with
  | true => rw [State.account_stepped hp hlive, if_pos rfl]
  | false => rw [State.account_steppedOut hp hlive, if_neg Bool.false_ne_true]

/-- Everything a step can do in RUN with no host call due. -/
theorem step_run_cases {s t : State} (hrun : s.mstate = .run) (hdue : s.dueCall = none)
    (h : step s = .next t) :
    (s.pt = [] ∧ t = { s with mstate := .stopped }) ∨
      (s.pt ≠ [] ∧ s.qstep = s.cfg.quantum ∧ t = { s with mstate := .yield }) ∨
      (s.qstep ≠ s.cfg.quantum ∧ ∃ p, s.current = some p ∧
        ((∃ c v, c ≠ .none ∧ t = s.abortedBy c v) ∨
          ∃ q es, p.Executes s.cfg q es ∧
            (q.live = true ∧ t = s.stepped q es ∨ q.live = false ∧ t = s.steppedOut q es))) := by
  rw [step_of_none hdue, State.ownStep_run hrun] at h
  rcases State.schedStep_next h with hempty | hyield | ⟨-, hq, haborts | ⟨u, hexec, hne, rfl⟩⟩
  · exact .inl hempty
  · exact .inr (.inl hyield)
  · obtain ⟨habort, hexec⟩ := haborts
    obtain ⟨p, hp, hraise | ⟨q, es, -, rfl⟩⟩ := State.execStep_cases hexec
    · exact .inr (.inr ⟨hq, p, hp, .inl hraise⟩)
    · simp [hrun] at habort
  · obtain ⟨p, hp, ⟨c, v, -, rfl⟩ | ⟨q, es, hexecutes, rfl⟩⟩ := State.execStep_cases hexec
    · exact absurd rfl hne
    · refine .inr (.inr ⟨hq, p, hp, .inr ⟨q, es, hexecutes, ?_⟩⟩)
      cases hlive : q.live with
      | true => exact .inl ⟨rfl, State.account_stepped hp hlive⟩
      | false => exact .inr ⟨rfl, State.account_steppedOut hp hlive⟩

/-! ### The statements -/

/-- Settles O36: the instruction's rule raises, and then the step ends, or it answers, and then the process
has executed. -/
theorem stepRunsTheDecodedInstruction : Obligations.StepRunsTheDecodedInstruction := by
  unfold Obligations.StepRunsTheDecodedInstruction
  intro s p i rest hready hp hdecode
  cases hrule : ruleOf s.cfg i p with
  | ok x =>
    obtain ⟨q, es⟩ := x
    have hexec : exec i s = .next ((s.setCurrent q).console es) := by
      rw [exec_of_current hp, hrule]
    have hstep := step_of_executes hready hp (.instr hdecode hrule)
    refine ⟨_, q, hexec, State.current_setCurrent hp q, fun habort => ?_, fun _ hlive => ?_,
      fun _ hdead => ?_⟩
    · simp [hready.1] at habort
    · rw [hstep, Process.live_iff.mpr hlive]
      rfl
    · have hnot : q.live = false := decide_eq_false (Nat.not_lt.mpr hdead)
      rw [hstep, hnot]
      simp [State.steppedOut, State.setCurrent, State.console]
  | error r =>
    have hexec : exec i s = .next (s.raise r) := by rw [exec_of_current hp, hrule]
    refine ⟨_, p, hexec, hp, fun _ => ?_, fun hne => absurd rfl hne, fun hne => absurd rfl hne⟩
    exact step_of_execStep_aborted hready hp ((State.execStep_instr hp hdecode).trans hexec) rfl

/-- Settles O37: a process that is not live executes as it is and leaves the table. -/
theorem stepOnAProcessThatIsNotLive : Obligations.StepOnAProcessThatIsNotLive := by
  unfold Obligations.StepOnAProcessThatIsNotLive
  intro s p hready hp hdead
  have hnot : p.live = false := decide_eq_false (Nat.not_lt.mpr hdead)
  rw [step_of_executes hready hp (.dead hnot), hnot]
  simp [State.steppedOut]

/-- Settles O34: the operand words that stand in the stream after the opcode word are too few. -/
theorem truncatedInstructionAbortsTheMachine :
    Obligations.TruncatedInstructionAbortsTheMachine := by
  unfold Obligations.TruncatedInstructionAbortsTheMachine
  intro s p op n hready hp hword hn hlen
  have hdecode : decode p.fetchWords = .reject (.truncated op) := by
    have hlt : p.pc.toNat < p.stream.length := Process.live_iff.mp (Process.live_of_getElem? hword)
    rw [Process.fetchWords_of_getElem? hword]
    refine decode_truncated hn ?_
    rw [List.length_drop]
    have hlen' : p.stream.length ≤ p.pc.toNat + n := hlen
    omega
  have hexec : s.execStep = .next (s.abortedBy .truncatedInstruction op) := by
    simp only [State.execStep, hp, Process.live_of_getElem? hword, hdecode, if_true]
    rfl
  exact ⟨step_of_execStep_aborted hready hp hexec rfl, rfl⟩

/-! ### A machine that waits -/

/-- No call is due where the first one still to come is not accepted. -/
theorem State.dueCall_none_of_refused {s : State}
    (h : ∀ c rest, s.host = c :: rest → c.acceptedIn s.mstate = false) : s.dueCall = none := by
  cases hh : s.host with
  | nil => exact State.dueCall_nil hh
  | cons c rest => rw [State.dueCall_cons hh, h c rest hh, if_neg Bool.false_ne_true]

/-- With no call due and outside RUN a step changes nothing. -/
theorem step_waits {s : State} (hdue : s.dueCall = none) (hm : s.mstate ≠ .run) :
    step s = .next s := by
  rw [step_of_none hdue, State.ownStep_idle hm]

/-- A machine that has ended accepts no call but a reset (R147, R169, R180). -/
theorem HostCall.not_acceptedIn_of_ended {c : HostCall} {m : MState}
    (hm : m = .stopped ∨ m = .aborted) (hc : c ≠ .reset) : c.acceptedIn m = false := by
  cases c with
  | reset => exact absurd rfl hc
  | load _ _ _ | start | resume => rcases hm with rfl | rfl <;> rfl

theorem step_of_ended {s : State} (hm : s.Ended) (hr : ∀ rest, s.host ≠ .reset :: rest) :
    step s = .next s := by
  have hdue : s.dueCall = none := State.dueCall_none_of_refused fun c rest hh =>
    HostCall.not_acceptedIn_of_ended hm fun hc => hr rest (hc ▸ hh)
  refine step_waits hdue fun hrun => ?_
  rcases hm with hm | hm <;> rw [hrun] at hm <;> cases hm

/-- Settles O35: of the things a step in RUN can do, one ends in ABORTED. -/
theorem faultsArePreciseAndTerminal : Obligations.FaultsArePreciseAndTerminal := by
  unfold Obligations.FaultsArePreciseAndTerminal
  refine ⟨fun s t ⟨hrun, hdue, _⟩ hstep habort => ?_, fun s hm hr => step_of_ended (.inr hm) hr⟩
  rcases step_run_cases hrun hdue hstep with ⟨-, rfl⟩ | ⟨-, -, rfl⟩ |
    ⟨-, p, -, ⟨c, v, hc, rfl⟩ | ⟨q, es, -, ⟨-, rfl⟩ | ⟨-, rfl⟩⟩⟩
  · cases habort
  · cases habort
  · exact ⟨c, v, hc, rfl⟩
  · exact absurd (hrun.symm.trans habort) MState.noConfusion
  · exact absurd (hrun.symm.trans habort) MState.noConfusion

end Sys2Proof.Machine

/-! PROOFS. The host's calls, the empty table and the quantum (R146 to R150, R180). -/

namespace Sys2Proof.Machine

/-! ### Which step is taken -/

/-- A call that is accepted is taken, and nothing else happens. -/
theorem step_of_call {s : State} {c : HostCall} {rest : List HostCall} (hh : s.host = c :: rest)
    (ha : c.acceptedIn s.mstate = true) :
    step s = .next (({ s with host := rest } : State).hostCall c) := by
  refine step_of_due ?_
  rw [State.dueCall_cons hh, if_pos ha]

/-- A call that is not accepted is not due. -/
theorem State.dueCall_none_of_cons {s : State} {c : HostCall} {rest : List HostCall}
    (hh : s.host = c :: rest) (ha : c.acceptedIn s.mstate = false) : s.dueCall = none := by
  rw [State.dueCall_cons hh, ha, if_neg Bool.false_ne_true]

theorem step_stops {s : State} (hrun : s.mstate = .run) (hdue : s.dueCall = none)
    (hpt : s.pt = []) : step s = .next { s with mstate := .stopped } := by
  rw [step_of_none hdue, State.ownStep_run hrun, State.schedStep, hpt, List.length_nil, if_pos rfl]

theorem step_yields {s : State} (hrun : s.mstate = .run) (hdue : s.dueCall = none)
    (hpt : s.pt ≠ []) (hq : s.qstep = s.cfg.quantum) :
    step s = .next { s with mstate := .yield } := by
  have hlen : s.pt.length ≠ 0 := fun h => hpt (List.length_eq_zero_iff.mp h)
  rw [step_of_none hdue, State.ownStep_run hrun, State.schedStep, if_neg hlen, if_pos hq]

theorem core_run_two {s t u : State} (hst : step s = .next t) (htu : step t = .next u) :
    Sys2Proof.core.run 2 s = .next u := by
  rw [core_run_succ 1 hst, core_run_succ 0 htu, core_run_zero]

/-! ### What the machine's own step leaves alone -/

theorem Process.Executes.keeps_creation {c : Config} {p q : Process} {es : List Event}
    (h : p.Executes c q es) :
    q.stream = p.stream ∧ q.heapSize = p.heapSize ∧ q.uid = p.uid ∧ q.loadIndex = p.loadIndex := by
  cases h with
  | dead => exact ⟨rfl, rfl, rfl, rfl⟩
  | instr _ hrule => exact ruleOf_keeps_creation hrule

/-- A step that takes no call leaves the host's list, makes the table no longer, and takes no event away. -/
theorem step_own_keeps {s t : State} (hdue : s.dueCall = none) (h : step s = .next t) :
    t.host = s.host ∧ t.pt.length ≤ s.pt.length ∧ ∃ es, t.out = s.out ++ es := by
  by_cases hrun : s.mstate = .run
  · rcases step_run_cases hrun hdue h with ⟨-, rfl⟩ | ⟨-, -, rfl⟩ |
      ⟨-, p, -, ⟨c, v, -, rfl⟩ | ⟨q, es, -, ⟨-, rfl⟩ | ⟨-, rfl⟩⟩⟩
    · exact ⟨rfl, le_rfl, [], s.out.append_nil.symm⟩
    · exact ⟨rfl, le_rfl, [], s.out.append_nil.symm⟩
    · exact ⟨rfl, le_rfl, [], s.out.append_nil.symm⟩
    · exact ⟨rfl, List.length_set.le, es, rfl⟩
    · exact ⟨rfl, s.pt.length_eraseIdx_le s.cur, es, rfl⟩
  · rw [step_waits hdue hrun] at h
    cases h
    exact ⟨rfl, le_rfl, [], s.out.append_nil.symm⟩

/-! ### The statements -/

/-- Settles O38: the emptiness test is the scheduler's first. -/
theorem emptyTableStopsTheMachine : Obligations.EmptyTableStopsTheMachine := by
  unfold Obligations.EmptyTableStopsTheMachine
  refine ⟨fun s hrun hdue hpt => step_stops hrun hdue hpt, fun s hidle hh hpt => ?started,
    fun s hm hr => step_of_ended (.inl hm) hr⟩
  case started =>
    have hstart : step s = .next { s with mstate := .run, cur := 0, qstep := 0, host := [] } :=
      step_of_call hh (by rw [hidle]; rfl)
    exact core_run_two hstart (step_stops rfl rfl hpt)

/-- Settles O39: the resume on the list is refused in RUN and taken in YIELD. -/
theorem quantumBoundaryYieldsAndResumes : Obligations.QuantumBoundaryYieldsAndResumes := by
  unfold Obligations.QuantumBoundaryYieldsAndResumes
  refine ⟨fun s hrun hdue hpt hq => step_yields hrun hdue hpt hq,
    fun s rest hrun hh hpt hq => ?resumed⟩
  case resumed =>
    have hdue : s.dueCall = none := State.dueCall_none_of_cons hh (by rw [hrun]; rfl)
    rw [core_run_two (step_yields hrun hdue hpt hq) (step_of_call hh rfl)]
    simp [State.hostCall, State.hostResume, hrun]

/-- Settles O40: `resume` is accepted in YIELD alone. -/
theorem resumeIsTakenInYieldOnly : Obligations.ResumeIsTakenInYieldOnly := by
  unfold Obligations.ResumeIsTakenInYieldOnly
  refine ⟨fun s hm hdue => ?waits, fun s rest hh hm => ?taken, fun s rest hh hm => ?early⟩
  case waits => exact step_waits hdue (by simp [hm])
  case taken => exact step_of_call hh (by rw [hm]; rfl)
  case early =>
    have hdue : s.dueCall = none := State.dueCall_none_of_cons hh (decide_eq_false hm)
    exact ⟨hdue, fun t hstep => (step_own_keeps hdue hstep).1⟩

/-- Settles O41: `start` is accepted in IDLE alone, and so is `load`, the one call that makes the table
longer. -/
theorem startIsTakenInIdleOnly : Obligations.StartIsTakenInIdleOnly := by
  unfold Obligations.StartIsTakenInIdleOnly
  refine ⟨fun s rest hh hm => ?taken, fun s rest hh hm => ?early, fun s t hm hstep => ?noLoad⟩
  case taken => exact step_of_call hh (by rw [hm]; rfl)
  case early => exact State.dueCall_none_of_cons hh (decide_eq_false hm)
  case noLoad =>
    cases hdue : s.dueCall with
    | none => exact (step_own_keeps hdue hstep).2.1
    | some x =>
      obtain ⟨c, u⟩ := x
      rw [step_of_due hdue] at hstep
      obtain ⟨rest, -, ha, rfl⟩ := State.dueCall_some hdue
      cases hstep
      cases c with
      | reset => exact Nat.zero_le _
      | load | start => exact absurd (of_decide_eq_true ha) hm
      | resume => exact le_rfl

/-- Settles O42: a load that fits appends `Process.create`. -/
theorem loadAppendsAFreshProcess : Obligations.LoadAppendsAFreshProcess := by
  unfold Obligations.LoadAppendsAFreshProcess
  refine ⟨fun s stream heapSize uid rest hm hh hlen hsize hroom => ?taken,
    fun s stream heapSize uid rest hm hh => ?early, fun _ => rfl⟩
  case taken =>
    have hfits : ({ s with host := rest } : State).loadFits stream heapSize = true :=
      State.loadFits_iff.mpr ⟨hlen, hsize, hroom⟩
    refine ⟨Process.create s.pt.length stream heapSize uid, ?_, Process.reg_create _ _ _ _, rfl,
      Process.heapWord_create _ _ _ _, rfl, rfl, rfl, rfl⟩
    rw [step_of_call hh (by rw [hm]; rfl), State.hostCall, State.hostLoad, if_pos hfits]
  case early => exact State.dueCall_none_of_cons hh (decide_eq_false hm)

/-- Settles O43: a load that fits is within each of the three bounds. -/
theorem loadOutOfBoundsChangesNothing : Obligations.LoadOutOfBoundsChangesNothing := by
  unfold Obligations.LoadOutOfBoundsChangesNothing
  intro s stream heapSize uid rest hm hh hout
  have hfits : ¬ ({ s with host := rest } : State).loadFits stream heapSize = true := by
    intro hfits
    obtain ⟨hlen, hsize, hroom⟩ := State.loadFits_iff.mp hfits
    rcases hout with hlen' | hsize' | ⟨n, hn, hfull⟩
    · exact Nat.not_lt.mpr hlen hlen'
    · exact Nat.not_lt.mpr hsize hsize'
    · exact Nat.not_lt.mpr hfull (hroom n hn)
  rw [step_of_call hh (by rw [hm]; rfl), State.hostCall, State.hostLoad, if_neg hfits]

/-- Settles O44: `reset` is accepted in every state. -/
theorem resetInAnyStateLeavesNothing : Obligations.ResetInAnyStateLeavesNothing := by
  unfold Obligations.ResetInAnyStateLeavesNothing
  intro s rest hh
  exact ⟨_, step_of_call hh rfl, rfl, rfl, rfl, rfl, rfl, rfl, rfl, rfl, rfl, rfl, rfl⟩

/-- Settles O46: of the calls reset alone touches OUT, and the machine's own steps append to it. -/
theorem outputIsAppendOnly : Obligations.OutputIsAppendOnly := by
  unfold Obligations.OutputIsAppendOnly
  intro s t hr hstep
  cases hdue : s.dueCall with
  | none => exact (step_own_keeps hdue hstep).2.2
  | some x =>
    obtain ⟨c, u⟩ := x
    rw [step_of_due hdue] at hstep
    obtain ⟨rest, hh, -, rfl⟩ := State.dueCall_some hdue
    cases hstep
    refine ⟨[], ?_⟩
    rw [List.append_nil]
    cases c with
    | reset => exact absurd hh (hr rest)
    | load stream heapSize uid =>
      rcases State.hostLoad_spec { s with host := rest } stream heapSize uid with ⟨-, h⟩ | ⟨-, h⟩ <;>
        rw [State.hostCall, h]
    | start | resume => rfl

/-- The load indices of a table do not see which process of an index stands in a place. -/
theorem map_loadIndex_set {pt : List Process} {k : Nat} {p q : Process} (hp : pt[k]? = some p)
    (hq : q.loadIndex = p.loadIndex) :
    (pt.set k q).map Process.loadIndex = pt.map Process.loadIndex := by
  have hindex : (pt.map Process.loadIndex)[k]? = some q.loadIndex := by
    rw [List.getElem?_map, hp, hq]
    rfl
  obtain ⟨hlt, hget⟩ := List.getElem?_eq_some_iff.mp hindex
  rw [List.map_set, ← hget, List.set_getElem_self]

/-- Settles O45: a process that executes keeps its load index, so a table changes its list of them only by
losing the process at the cursor. -/
theorem theTableIsNeverReordered : Obligations.TheTableIsNeverReordered := by
  unfold Obligations.TheTableIsNeverReordered
  intro s t hdue hstep
  by_cases hrun : s.mstate = .run
  · rcases step_run_cases hrun hdue hstep with ⟨-, rfl⟩ | ⟨-, -, rfl⟩ |
      ⟨-, p, hp, ⟨c, v, -, rfl⟩ | ⟨q, es, hexecutes, ⟨-, rfl⟩ | ⟨-, rfl⟩⟩⟩
    · exact .inl rfl
    · exact .inl rfl
    · exact .inl rfl
    · obtain ⟨-, -, -, hindex⟩ := hexecutes.keeps_creation
      exact .inl (map_loadIndex_set hp hindex)
    · exact .inr (List.eraseIdx_map _ _ _).symm
  · rw [step_waits hdue hrun] at hstep
    cases hstep
    exact .inl rfl

end Sys2Proof.Machine

/-! PROOFS. The invariant of the machine. Reset has it, every host call and every step of the machine's own
keeps it, and a state that has it steps on; so a quantum, which every step uses up, bounds a batch. -/

namespace Sys2Proof.Machine

/-! ### A process keeps its part -/

/-- A word written inside HEAP_SIZE keeps the heap canonical and inside it. -/
theorem Process.Wf.of_heap {p q : Process} (hp : p.Wf) (hsize : q.heapSize = p.heapSize)
    (hstream : q.stream = p.stream) (hsign : q.flags.sign = p.flags.sign)
    (hheap : q.heap = p.heap ∨
      ∃ a v, a < p.heapSize ∧ q.heap = p.heap.write a v) : q.Wf := by
  obtain ⟨hwf, hinside, hmax, hlen, hfalse⟩ := hp
  unfold Process.Wf
  rw [hsize, hstream, hsign]
  rcases hheap with hheap | ⟨a, v, ha, hheap⟩
  · rw [hheap]
    exact ⟨hwf, hinside, hmax, hlen, hfalse⟩
  · rw [hheap]
    refine ⟨Memory.wf_write hwf a v, fun c hc => ?_, hmax, hlen, hfalse⟩
    rcases Memory.mem_write hc with rfl | hc
    · exact ha
    · exact hinside c hc

theorem Process.Wf.executes {c : Config} {p q : Process} {es : List Event} (hp : p.Wf)
    (h : p.Executes c q es) : q.Wf := by
  cases h with
  | dead => exact hp
  | instr _ hrule =>
    obtain ⟨hstream, hsize, -, -⟩ := ruleOf_keeps_creation hrule
    obtain ⟨p', g, t, hdest, ⟨hsign, -, -⟩, rfl⟩ := ruleOf_ok hrule
    refine hp.of_heap hsize hstream hsign ?_
    rcases Dest.written_heap hdest with hsame | ⟨-, a, v, -, -, ha, hwrite⟩
    · exact .inl hsame
    · exact .inr ⟨a.toNat, v, ha, hwrite⟩

theorem Process.create_wf {stream : List Word} {heapSize : Nat} (k : Nat) (uid : Word)
    (hlen : stream.length ≤ maxStreamLength) (hsize : heapSize ≤ maxHeapSize) :
    (Process.create k stream heapSize uid).Wf :=
  ⟨Memory.wf_nil, fun _ hc => absurd hc List.not_mem_nil, hsize, hlen, rfl⟩

/-- A created process is live unless its stream is empty. -/
theorem Process.create_tabled (k : Nat) (stream : List Word) (heapSize : Nat) (uid : Word) :
    (Process.create k stream heapSize uid).Tabled := by
  cases stream with
  | nil => exact .inr ⟨rfl, rfl⟩
  | cons w ws => exact .inl (Process.live_iff.mpr (Nat.zero_lt_succ _))

/-! ### Host calls keep the invariant -/

/-- The invariant says nothing of the calls still to come. -/
theorem State.Inv.withHost {s : State} (h : s.Inv) (rest : List HostCall) :
    ({ s with host := rest } : State).Inv :=
  { h with }

/-- In RUN the clauses about the other run states fall away. -/
theorem State.Inv.of_run {s : State} (hrun : s.mstate = .run) (cfg_valid : s.cfg.Valid)
    (pt_wf : ∀ p ∈ s.pt, p.Wf) (pt_tabled : ∀ p ∈ s.pt, p.Tabled)
    (pt_order : s.pt.Pairwise (fun p q => p.loadIndex < q.loadIndex))
    (pt_capacity : ∀ n, s.cfg.nprocMax = some n → s.pt.length ≤ n)
    (cursor : s.cur < s.pt.length ∨ (s.pt = [] ∧ s.cur = 0)) (qstep_le : s.qstep ≤ s.cfg.quantum)
    (no_cause : s.acause = .none ∧ s.aval = 0#32) (halted_dead : ∀ p ∈ s.halted, p.live = false) :
    s.Inv where
  cfg_valid := cfg_valid
  pt_wf := pt_wf
  pt_tabled := pt_tabled
  pt_order := pt_order
  pt_capacity := pt_capacity
  cursor := cursor
  qstep_le := qstep_le
  no_cause _ := no_cause
  abort_cause h := absurd (hrun.symm.trans h) MState.noConfusion
  idle h := absurd (hrun.symm.trans h) MState.noConfusion
  yield h := absurd (hrun.symm.trans h) MState.noConfusion
  stopped h := absurd (hrun.symm.trans h) MState.noConfusion
  halted_dead := halted_dead

theorem State.reset_inv_of_valid {c : Config} (hc : c.Valid) (host : List HostCall) :
    ({ State.reset with cfg := c, host := host } : State).Inv where
  cfg_valid := hc
  pt_wf _ h := absurd h List.not_mem_nil
  pt_tabled _ h := absurd h List.not_mem_nil
  pt_order := List.Pairwise.nil
  pt_capacity _ _ := Nat.zero_le _
  cursor := .inr ⟨rfl, rfl⟩
  qstep_le := Nat.zero_le _
  no_cause _ := ⟨rfl, rfl⟩
  abort_cause h := absurd h MState.noConfusion
  idle _ := ⟨rfl, rfl, rfl, rfl, rfl⟩
  yield h := absurd h MState.noConfusion
  stopped h := absurd h MState.noConfusion
  halted_dead _ h := absurd h List.not_mem_nil

theorem State.Inv.hostReset {s : State} (h : s.Inv) : s.hostReset.Inv :=
  State.reset_inv_of_valid h.cfg_valid s.host

/-- The process appended is the last in load order, since in IDLE the load indices count the table. -/
theorem State.Inv.append {s : State} (h : s.Inv) (hidle : s.mstate = .idle) {stream : List Word}
    {heapSize : Nat} (uid : Word) (hlen : stream.length ≤ maxStreamLength)
    (hsize : heapSize ≤ maxHeapSize) (hroom : ∀ n, s.cfg.nprocMax = some n → s.pt.length < n) :
    ({ s with pt := s.pt ++ [Process.create s.pt.length stream heapSize uid] } : State).Inv := by
  obtain ⟨hcur, hqstep, hout, hhalted, hindex⟩ := h.idle hidle
  have hbefore : ∀ p ∈ s.pt, p.loadIndex < s.pt.length := fun p hp => by
    have hmem := List.mem_map_of_mem (f := Process.loadIndex) hp
    rwa [hindex, List.mem_range] at hmem
  exact {
    cfg_valid := h.cfg_valid
    pt_wf := List.forall_mem_append.mpr
      ⟨h.pt_wf, List.forall_mem_singleton.mpr (Process.create_wf _ uid hlen hsize)⟩
    pt_tabled := List.forall_mem_append.mpr
      ⟨h.pt_tabled, List.forall_mem_singleton.mpr (Process.create_tabled _ _ _ uid)⟩
    pt_order := List.pairwise_append.mpr ⟨h.pt_order, List.pairwise_singleton _ _,
      fun p hp q hq => by
        obtain rfl := List.mem_singleton.mp hq
        exact hbefore p hp⟩
    pt_capacity := fun n hn => by
      rw [List.length_append]
      exact hroom n hn
    cursor := .inl (by simp [hcur])
    qstep_le := h.qstep_le
    no_cause := h.no_cause
    abort_cause := fun ha => absurd (hidle.symm.trans ha) MState.noConfusion
    idle := fun _ => ⟨hcur, hqstep, hout, hhalted, by
      simp [hindex, List.range_succ, Process.create]⟩
    yield := fun hy => absurd (hidle.symm.trans hy) MState.noConfusion
    stopped := fun hs => absurd (hidle.symm.trans hs) MState.noConfusion
    halted_dead := h.halted_dead }

theorem State.Inv.hostLoad {s : State} (h : s.Inv) (hidle : s.mstate = .idle) (stream : List Word)
    (heapSize : Nat) (uid : Word) : (s.hostLoad stream heapSize uid).Inv := by
  rcases s.hostLoad_spec stream heapSize uid with ⟨hfits, heq⟩ | ⟨-, heq⟩
  · obtain ⟨hlen, hsize, hroom⟩ := State.loadFits_iff.mp hfits
    rw [heq]
    exact h.append hidle uid hlen hsize hroom
  · rw [heq]
    exact h

theorem State.Inv.hostStart {s : State} (h : s.Inv) (hidle : s.mstate = .idle) :
    s.hostStart.Inv :=
  .of_run rfl h.cfg_valid h.pt_wf h.pt_tabled h.pt_order h.pt_capacity
    (s.pt.length.eq_zero_or_pos.symm.imp_right fun h0 => ⟨List.length_eq_zero_iff.mp h0, rfl⟩)
    (Nat.zero_le _) (h.no_cause (by simp [hidle])) h.halted_dead

theorem State.Inv.hostResume {s : State} (h : s.Inv) (hyield : s.mstate = .yield) :
    s.hostResume.Inv :=
  .of_run rfl h.cfg_valid h.pt_wf h.pt_tabled h.pt_order h.pt_capacity h.cursor
    (Nat.zero_le _) (h.no_cause (by simp [hyield])) h.halted_dead

theorem State.Inv.hostCall {s : State} (h : s.Inv) {c : HostCall}
    (hc : c.acceptedIn s.mstate = true) : (s.hostCall c).Inv := by
  cases c with
  | reset => exact h.hostReset
  | load stream heapSize uid => exact h.hostLoad (of_decide_eq_true hc) stream heapSize uid
  | start => exact h.hostStart (of_decide_eq_true hc)
  | resume => exact h.hostResume (of_decide_eq_true hc)

/-! ### The machine's own steps keep the invariant -/

section
variable {s : State} {p q : Process} {es : List Event}

theorem State.Inv.stop (h : s.Inv) (hrun : s.mstate = .run) (hpt : s.pt = []) :
    ({ s with mstate := .stopped } : State).Inv :=
  { h with
    no_cause := fun _ => h.no_cause (by simp [hrun])
    abort_cause := fun ha => absurd ha MState.noConfusion
    idle := fun hi => absurd hi MState.noConfusion
    yield := fun hy => absurd hy MState.noConfusion
    stopped := fun _ => hpt }

theorem State.Inv.yields (h : s.Inv) (hrun : s.mstate = .run) (hpt : s.pt ≠ [])
    (hq : s.qstep = s.cfg.quantum) : ({ s with mstate := .yield } : State).Inv :=
  { h with
    no_cause := fun _ => h.no_cause (by simp [hrun])
    abort_cause := fun ha => absurd ha MState.noConfusion
    idle := fun hi => absurd hi MState.noConfusion
    yield := fun _ => ⟨hpt, hq⟩
    stopped := fun hs => absurd hs MState.noConfusion }

theorem State.Inv.abortedBy (h : s.Inv) (hp : s.current = some p) {c : Cause} (hc : c ≠ .none)
    (v : Word) : (s.abortedBy c v).Inv :=
  { h with
    no_cause := fun hne => absurd rfl hne
    abort_cause := fun _ => ⟨hc, State.cur_lt_of_current hp⟩
    idle := fun hi => absurd hi MState.noConfusion
    yield := fun hy => absurd hy MState.noConfusion
    stopped := fun hs => absurd hs MState.noConfusion }

/-- Load order is an order of the load indices. -/
theorem pairwise_loadIndex_iff {pt : List Process} :
    pt.Pairwise (fun p q => p.loadIndex < q.loadIndex) ↔
      (pt.map Process.loadIndex).Pairwise (· < ·) :=
  List.pairwise_map.symm

theorem forall_mem_set {P : Process → Prop} {pt : List Process} (h : ∀ p ∈ pt, P p) (k : Nat)
    (hq : P q) : ∀ p ∈ pt.set k q, P p := by
  intro p hp
  rcases List.mem_or_eq_of_mem_set hp with hp | rfl
  · exact h p hp
  · exact hq

theorem State.Inv.stepped (h : s.Inv) (hrun : s.mstate = .run) (hq : s.qstep ≠ s.cfg.quantum)
    (hp : s.current = some p) (hexecutes : p.Executes s.cfg q es) (hlive : q.live = true) :
    (s.stepped q es).Inv := by
  have hlt := State.cur_lt_of_current hp
  have hmem : p ∈ s.pt := List.mem_of_getElem? hp
  refine .of_run hrun h.cfg_valid (forall_mem_set h.pt_wf _ ((h.pt_wf p hmem).executes hexecutes))
    (forall_mem_set h.pt_tabled _ (.inl hlive)) ?order ?capacity (.inl ?cursor)
    (Nat.lt_of_le_of_ne h.qstep_le hq) (h.no_cause (by simp [hrun])) h.halted_dead
  case order =>
    obtain ⟨-, -, -, hindex⟩ := hexecutes.keeps_creation
    rw [pairwise_loadIndex_iff, State.stepped, map_loadIndex_set hp hindex]
    exact pairwise_loadIndex_iff.mp h.pt_order
  case capacity => simpa [State.stepped] using h.pt_capacity
  case cursor =>
    rw [State.stepped, List.length_set]
    exact Nat.mod_lt _ (Nat.zero_lt_of_lt hlt)

/-- The cursor wraps when the last process of the table has left it (R144). -/
theorem eraseIdx_cursor {pt : List Process} {k : Nat} (hk : k < pt.length) :
    (if k + 1 = pt.length then 0 else k) < (pt.eraseIdx k).length ∨
      pt.eraseIdx k = [] ∧ (if k + 1 = pt.length then 0 else k) = 0 := by
  rw [← List.length_eq_zero_iff, List.length_eraseIdx_of_lt hk]
  split <;> omega

theorem State.Inv.steppedOut (h : s.Inv) (hrun : s.mstate = .run) (hq : s.qstep ≠ s.cfg.quantum)
    (hp : s.current = some p) (hdead : q.live = false) : (s.steppedOut q es).Inv :=
  .of_run hrun h.cfg_valid (fun p hp => h.pt_wf p (List.mem_of_mem_eraseIdx hp))
    (fun p hp => h.pt_tabled p (List.mem_of_mem_eraseIdx hp))
    (h.pt_order.sublist (List.eraseIdx_sublist s.pt s.cur))
    (fun n hn => (s.pt.length_eraseIdx_le s.cur).trans (h.pt_capacity n hn))
    (eraseIdx_cursor (State.cur_lt_of_current hp))
    (Nat.lt_of_le_of_ne h.qstep_le hq) (h.no_cause (by simp [hrun]))
    (List.forall_mem_append.mpr ⟨h.halted_dead, List.forall_mem_singleton.mpr hdead⟩)

end

/-! ### The statements -/

/-- Settles O50: a step takes a call, or waits, or is one of the five of `step_run_cases`. -/
theorem everyStepKeepsTheInvariant : Obligations.EveryStepKeepsTheInvariant := by
  unfold Obligations.EveryStepKeepsTheInvariant
  intro s t h hstep
  cases hdue : s.dueCall with
  | some x =>
    obtain ⟨c, u⟩ := x
    rw [step_of_due hdue] at hstep
    obtain ⟨rest, -, ha, rfl⟩ := State.dueCall_some hdue
    cases hstep
    exact (h.withHost rest).hostCall ha
  | none =>
    by_cases hrun : s.mstate = .run
    · rcases step_run_cases hrun hdue hstep with ⟨hpt, rfl⟩ | ⟨hpt, hq, rfl⟩ |
        ⟨hq, p, hp, ⟨c, v, hc, rfl⟩ | ⟨q, es, hexecutes, ⟨hlive, rfl⟩ | ⟨hdead, rfl⟩⟩⟩
      · exact h.stop hrun hpt
      · exact h.yields hrun hpt hq
      · exact h.abortedBy hp hc v
      · exact h.stepped hrun hq hp hexecutes hlive
      · exact h.steppedOut hrun hq hp hdead
    · rw [step_waits hdue hrun] at hstep
      cases hstep
      exact h

/-- Settles O51: the default parameters are valid. -/
theorem resetHasTheInvariant : Obligations.ResetHasTheInvariant :=
  State.reset_inv_of_valid (c := Config.default) (by decide) []

/-- With a process at the cursor the executor step answers. -/
theorem State.execStep_total {s : State} {p : Process} (hp : s.current = some p) :
    ∃ t, s.execStep = .next t := by
  simp only [State.execStep, hp]
  split
  · split
    · exact exec_total hp
    all_goals exact ⟨_, rfl⟩
  · exact ⟨_, rfl⟩

/-- Settles O52: the invariant puts a process at the cursor of a table that is not empty. -/
theorem everyStepOfASoundStateAnswersNext : Obligations.EveryStepOfASoundStateAnswersNext := by
  unfold Obligations.EveryStepOfASoundStateAnswersNext
  intro s h
  cases hdue : s.dueCall with
  | some x => exact ⟨_, step_of_due hdue⟩
  | none =>
    by_cases hrun : s.mstate = .run
    · rcases h.cursor with hlt | ⟨hpt, -⟩
      · have hp : s.current = some s.pt[s.cur] := List.getElem?_eq_getElem hlt
        by_cases hq : s.qstep = s.cfg.quantum
        · exact ⟨_, step_yields hrun hdue (List.ne_nil_of_length_pos (Nat.zero_lt_of_lt hlt)) hq⟩
        · obtain ⟨t, hexec⟩ := State.execStep_total hp
          by_cases habort : t.mstate = .aborted
          · exact ⟨t, step_of_execStep_aborted ⟨hrun, hdue, hq⟩ hp hexec habort⟩
          · refine ⟨t.account, ?_⟩
            rw [step_of_none hdue, State.ownStep_run hrun]
            exact State.schedStep_of_execStep hq hp hexec habort
      · exact ⟨_, step_stops hrun hdue hpt⟩
    · exact ⟨s, step_waits hdue hrun⟩

/-- A batch of a running machine with `m` steps left in its quantum, by induction on `m`: a step that stays
in RUN uses up one of them. -/
theorem batch_bounded (m : Nat) :
    ∀ s : State, s.Inv → s.mstate = .run → s.host = [] → s.cfg.quantum - s.qstep = m →
      ∃ k t, k ≤ m + 1 ∧ Sys2Proof.core.run k s = .next t ∧ t.mstate ≠ .run := by
  induction m with
  | zero =>
    intro s h hrun hh hm
    obtain ⟨t, hstep⟩ := everyStepOfASoundStateAnswersNext s h
    have hq : s.qstep = s.cfg.quantum := Nat.le_antisymm h.qstep_le (Nat.sub_eq_zero_iff_le.mp hm)
    refine ⟨1, t, le_rfl, core_run_succ 0 hstep, ?_⟩
    rcases step_run_cases hrun (State.dueCall_nil hh) hstep with ⟨-, rfl⟩ | ⟨-, -, rfl⟩ | ⟨hne, -⟩
    · exact MState.noConfusion
    · exact MState.noConfusion
    · exact absurd hq hne
  | succ m ih =>
    intro s h hrun hh hm
    obtain ⟨t, hstep⟩ := everyStepOfASoundStateAnswersNext s h
    have hinv : t.Inv := everyStepKeepsTheInvariant s t h hstep
    by_cases ht : t.mstate = .run
    · have hrest : t.host = [] ∧ t.cfg.quantum - t.qstep = m := by
        rcases step_run_cases hrun (State.dueCall_nil hh) hstep with ⟨-, rfl⟩ | ⟨-, -, rfl⟩ |
          ⟨-, p, -, ⟨c, v, -, rfl⟩ | ⟨q, es, -, ⟨-, rfl⟩ | ⟨-, rfl⟩⟩⟩
        · cases ht
        · cases ht
        · cases ht
        · exact ⟨hh, by simp only [State.stepped]; omega⟩
        · exact ⟨hh, by simp only [State.steppedOut]; omega⟩
      obtain ⟨k, u, hk, hu, hne⟩ := ih t hinv ht hrest.1 hrest.2
      exact ⟨k + 1, u, Nat.succ_le_succ hk, (core_run_succ k hstep).trans hu, hne⟩
    · exact ⟨1, t, Nat.succ_le_succ (Nat.zero_le _), core_run_succ 0 hstep, ht⟩

/-- Settles O47: the steps left in the quantum are `QUANTUM - QSTEP`. -/
theorem theQuantumBoundsTheBatch : Obligations.TheQuantumBoundsTheBatch := by
  unfold Obligations.TheQuantumBoundsTheBatch
  exact fun s h hrun hh => batch_bounded _ s h hrun hh rfl

end Sys2Proof.Machine

/-! PROOFS. QUANTUM and what is executed (R146, R153): nothing but the quantum test looks at the parameter. -/

namespace Sys2Proof.Machine

theorem ruleOf_of_quantum (c : Config) (n : Nat) (i : Instr) :
    ruleOf { c with quantum := n } i = ruleOf c i := by
  rw [ruleOf_eq_form, ruleOf_eq_form]
  cases i <;> rfl

theorem State.dueCall_withQuantum {s : State} (n : Nat) (h : s.dueCall = none) :
    (s.withQuantum n).dueCall = none :=
  State.dueCall_none_of_refused fun c rest hh => by
    have hh' : s.host = c :: rest := hh
    rw [State.dueCall_cons hh'] at h
    cases ha : c.acceptedIn s.mstate with
    | false => exact ha
    | true => simp [ha] at h

theorem exec_withQuantum {i : Instr} {s t : State} (n : Nat) (h : exec i s = .next t) :
    exec i (s.withQuantum n) = .next (t.withQuantum n) := by
  obtain ⟨p, hp, hcases⟩ := exec_next h
  have hp' : (s.withQuantum n).current = some p := hp
  have hrule' : ruleOf (s.withQuantum n).cfg i p = ruleOf s.cfg i p := by
    rw [State.withQuantum, ruleOf_of_quantum]
  rw [exec_of_current hp', hrule']
  rcases hcases with ⟨q, es, hrule, rfl⟩ | ⟨r, hrule, rfl⟩ <;> rw [hrule] <;> rfl

theorem State.execStep_withQuantum {s t : State} (n : Nat) (h : s.execStep = .next t) :
    (s.withQuantum n).execStep = .next (t.withQuantum n) := by
  obtain ⟨p, hp, hcases⟩ := State.execStep_next h
  have hp' : (s.withQuantum n).current = some p := hp
  rcases hcases with ⟨hdead, rfl⟩ | ⟨hlive, op, hdecode, rfl⟩ | ⟨hlive, op, hdecode, rfl⟩ |
    ⟨-, i, rest, hdecode, hexec⟩
  · simp [State.execStep, hp', hdead]
  · simp only [State.execStep, hp', hlive, hdecode, if_true]
    rfl
  · simp only [State.execStep, hp', hlive, hdecode, if_true]
    rfl
  · rw [State.execStep_instr hp' hdecode]
    exact exec_withQuantum n hexec

theorem State.account_withQuantum (s : State) (n : Nat) :
    (s.withQuantum n).account = s.account.withQuantum n := by
  rcases s.account_cases with ⟨hp, h⟩ | ⟨p, hp, hlive, h⟩ | ⟨p, hp, hdead, h⟩
  · have hp' : ({ s.withQuantum n with qstep := s.qstep + 1 } : State).current = none := hp
    rw [h]
    simp only [State.account, State.withQuantum] at hp' ⊢
    rw [hp']
  · have hp' : (s.withQuantum n).current = some p := hp
    rw [State.account_of_current hp', hlive, h]
    rfl
  · have hp' : (s.withQuantum n).current = some p := hp
    rw [State.account_of_current hp', hdead, h]
    rfl

/-- Settles O48: with a step left under both values, both quantum tests let the executor step be taken. -/
theorem theQuantumDoesNotAffectExecution : Obligations.TheQuantumDoesNotAffectExecution := by
  unfold Obligations.TheQuantumDoesNotAffectExecution
  intro s t n ⟨hrun, hdue, hq⟩ hn hstep
  have hready' : (s.withQuantum n).Ready := ⟨hrun, State.dueCall_withQuantum n hdue, hn⟩
  obtain ⟨hrun', hdue', hq'⟩ := hready'
  rw [step_of_none hdue, State.ownStep_run hrun] at hstep
  rcases State.schedStep_next hstep with ⟨hpt, rfl⟩ | ⟨-, hyield, -⟩ |
    ⟨-, -, ⟨habort, hexec⟩ | ⟨u, hexec, hne, rfl⟩⟩
  · exact step_stops hrun' hdue' hpt
  · exact absurd hyield hq
  · obtain ⟨p, hp, -⟩ := State.execStep_next hexec
    exact step_of_execStep_aborted ⟨hrun', hdue', hq'⟩ hp (State.execStep_withQuantum n hexec) habort
  · obtain ⟨p, hp, -⟩ := State.execStep_next hexec
    have hp' : (s.withQuantum n).current = some p := hp
    rw [step_of_none hdue', State.ownStep_run hrun',
      State.schedStep_of_execStep hq' hp' (State.execStep_withQuantum n hexec) hne,
      State.account_withQuantum]

end Sys2Proof.Machine

/-! PROOFS. Round-robin fairness (R143, R145, R152), by induction on the steps taken: `RoundAfter` says where
a round stands after `j` steps. -/

namespace Sys2Proof.Machine

/-- Every process of the table has an instruction at pc that neither raises nor halts it, whichever turn it
is. -/
def State.NoneHalts (s : State) : Prop :=
  ∀ k p, s.pt[k]? = some p →
    ∃ i rest u q, decode p.fetchWords = .instr i rest ∧ exec i { s with cur := k } = .next u ∧
      u.mstate = .run ∧ u.current = some q ∧ q.live = true

/-- In `t` the process at index `k` has executed its instruction of `s`, once. -/
def State.ExecutedAt (s t : State) (k : Nat) : Prop :=
  ∀ p i rest u, s.pt[k]? = some p → decode p.fetchWords = .instr i rest →
    exec i { s with cur := k } = .next u → t.pt[k]? = u.pt[k]?

/-- The state `t` is `j` steps into a round of `n` processes that began in `s`. -/
structure RoundAfter (s : State) (n j : Nat) (t : State) : Prop where
  cfg : t.cfg = s.cfg
  host : t.host = []
  mstate : t.mstate = .run
  length : t.pt.length = n
  qstep : t.qstep = s.qstep + j
  cur : t.cur = (s.cur + j) % n
  /-- The `j` processes from the starting index on have had their turn. -/
  done : ∀ m, m < j → s.ExecutedAt t ((s.cur + m) % n)
  /-- The others are as they were. -/
  todo : ∀ m, j ≤ m → m < n → t.pt[(s.cur + m) % n]? = s.pt[(s.cur + m) % n]?

/-- A round of `n` turns meets no index twice. -/
theorem turn_injective {c n m j : Nat} (hm : m < n) (hj : j < n)
    (h : (c + m) % n = (c + j) % n) : m = j := by
  have hmod : m % n = j % n := Nat.ModEq.add_left_cancel' c h
  rwa [Nat.mod_eq_of_lt hm, Nat.mod_eq_of_lt hj] at hmod

/-- A process that does not halt in its turn executes, and stays live; and what its instruction makes of it,
it makes of it at its index. -/
theorem State.NoneHalts.executes {s : State} (h : s.NoneHalts) {k : Nat} {p : Process}
    (hp : s.pt[k]? = some p) :
    ∃ q es, p.Executes s.cfg q es ∧ q.live = true ∧
      ∀ i rest u, decode p.fetchWords = .instr i rest → exec i { s with cur := k } = .next u →
        u.pt[k]? = some q := by
  obtain ⟨i, rest, u, q, hdecode, hexec, hrun, hq, hlive⟩ := h k p hp
  have hcurrent : ({ s with cur := k } : State).current = some p := hp
  rcases exec_current hexec hcurrent hq with ⟨r, -, rfl, -⟩ | ⟨es, hrule, hu⟩
  · cases hrun
  · refine ⟨q, es, .instr hdecode hrule, hlive, fun i' rest' u' hdecode' hexec' => ?_⟩
    obtain ⟨rfl, -⟩ := Decoded.instr.inj (hdecode.symm.trans hdecode')
    cases hexec.symm.trans hexec'
    rw [hu] at hq ⊢
    exact hq

theorem RoundAfter.start {s : State} {n : Nat} (hrun : s.mstate = .run) (hh : s.host = [])
    (hlen : s.pt.length = n) (hcur : s.cur < n) : RoundAfter s n 0 s where
  cfg := rfl
  host := hh
  mstate := hrun
  length := hlen
  qstep := rfl
  cur := (Nat.mod_eq_of_lt hcur).symm
  done _ hm := absurd hm (Nat.not_lt_zero _)
  todo _ _ _ := rfl

/-- One turn: the process at the cursor has not had its turn yet, so it executes the instruction it had in
`s`, and the cursor moves on. -/
theorem RoundAfter.turn {s t : State} {n j : Nat} (h : RoundAfter s n j t) (hnone : s.NoneHalts)
    (hlen : s.pt.length = n) (hquantum : s.qstep + n ≤ s.cfg.quantum) (hj : j < n) :
    ∃ t', step t = .next t' ∧ RoundAfter s n (j + 1) t' := by
  have hlt : (s.cur + j) % n < s.pt.length := by
    rw [hlen]
    exact Nat.mod_lt _ (Nat.zero_lt_of_lt hj)
  have hp : s.pt[(s.cur + j) % n]? = some s.pt[(s.cur + j) % n] := List.getElem?_eq_getElem hlt
  obtain ⟨q, es, hexecutes, hlive, hresult⟩ := hnone.executes hp
  have hcurrent : t.current = some s.pt[(s.cur + j) % n] := by
    rw [State.current, h.cur, h.todo j le_rfl hj, hp]
  have hready : t.Ready := by
    refine ⟨h.mstate, State.dueCall_nil h.host, ?_⟩
    rw [h.qstep, h.cfg]
    omega
  have hstep := step_of_executes hready hcurrent (h.cfg ▸ hexecutes)
  rw [hlive, if_pos rfl] at hstep
  have hturn : (t.stepped q es).pt = t.pt.set ((s.cur + j) % n) q := by
    rw [State.stepped, h.cur]
  have hother : ∀ m, m < n → m ≠ j →
      (t.stepped q es).pt[(s.cur + m) % n]? = t.pt[(s.cur + m) % n]? := fun m hm hne => by
    rw [hturn, List.getElem?_set_ne fun he => hne (turn_injective hm hj he.symm)]
  refine ⟨_, hstep, h.cfg, h.host, h.mstate, List.length_set.trans h.length,
    congrArg (· + 1) h.qstep, ?cur, fun m hm => ?done, fun m hm hmn => ?todo⟩
  case cur =>
    rw [State.stepped, h.cur, h.length, Nat.mod_add_mod, Nat.add_assoc]
  case done =>
    intro p i rest u hp' hdecode hexec
    rcases Nat.lt_succ_iff_lt_or_eq.mp hm with hlt' | rfl
    · rw [hother m (hlt'.trans hj) hlt'.ne]
      exact h.done m hlt' p i rest u hp' hdecode hexec
    · cases hp.symm.trans hp'
      rw [hturn, hresult i rest u hdecode hexec]
      exact List.getElem?_set_self (hlt.trans_eq (hlen.trans h.length.symm))
  case todo =>
    rw [hother m hmn (Nat.ne_of_gt hm)]
    exact h.todo m (Nat.le_of_succ_le hm) hmn

/-- The round, step by step. -/
theorem round_run {s : State} {n : Nat} (hrun : s.mstate = .run) (hh : s.host = [])
    (hlen : s.pt.length = n) (hcur : s.cur < n) (hquantum : s.qstep + n ≤ s.cfg.quantum)
    (hnone : s.NoneHalts) {j : Nat} (hj : j ≤ n) :
    ∃ t, Sys2Proof.core.run j s = .next t ∧ RoundAfter s n j t := by
  induction j with
  | zero => exact ⟨s, core_run_zero s, .start hrun hh hlen hcur⟩
  | succ j ih =>
    obtain ⟨t, ht, hround⟩ := ih (Nat.le_of_succ_le hj)
    obtain ⟨t', hstep, hround'⟩ := hround.turn hnone hlen hquantum hj
    exact ⟨t', core_run_snoc j ht hstep, hround'⟩

/-- Settles O49: after `n` turns the cursor has moved on by `n`, modulo `n`. -/
theorem roundRobinFairness : Obligations.RoundRobinFairness := by
  unfold Obligations.RoundRobinFairness
  intro s n hrun hh hlen hcur hquantum hnone j hj
  obtain ⟨t, ht, hround⟩ := round_run hrun hh hlen hcur hquantum hnone hj
  refine ⟨t, ht, hround.mstate, hround.length, hround.qstep, hround.cur, hround.done, hround.todo,
    fun hjn => ?_⟩
  rw [hround.cur, hjn, Nat.add_mod_right, Nat.mod_eq_of_lt hcur]

end Sys2Proof.Machine
